-- ==== Sys2Proof/Word.lean ====
section
/-! DEFINITION. The bit-vector widths the spec gives the block (spec/00_scope.md R6, R7): every value is unsigned. -/

namespace Sys2Proof

/-- A symbol, an output byte, a wire byte: `SYMW` = 8 bits (R6). -/
abbrev Byte := BitVec 8

/-- A tree-memory index, `IDXW` = 9 bits (R6). Legal values are 0 to 510. -/
abbrev Idx := BitVec 9

/-- A register value, an information word, a bit counter: `CNTW` = 64 bits (R6, R36). -/
abbrev Word := BitVec 64

/-- A bit sequence, element 0 the bit nearest the tree root and the first emitted (R7, R15). -/
abbrev Bits := List Bool

/-- `ceil(n / 8)`: how many bytes hold `n` bits (R60). -/
def ceilDiv8 (n : Nat) : Nat := (n + 7) / 8

end Sys2Proof
end

