-- ==== Sys2Proof/Config.lean ====
section
/-! DEFINITION. The parameters of spec/00_scope.md R6, at this hardware's values. The spec leaves no value open that a
command could observe (spec/93_implementation_defined.md), so there is no free value here. -/

namespace Sys2Proof.Config

/-- `NSYM`: number of code-table entries, `2^SYMW` (R6). -/
def numSymbols : Nat := 256

/-- `NNODE`: number of tree-memory entries, `2*NSYM - 1` (R6); the legal indices are 0 to 510. -/
def numNodes : Nat := 511

/-- `LMAX`: the longest code word an entry can hold (R6). -/
def maxCodeLength : Nat := 255

/-- The largest value of `BITLEN` and `BITCNT`, `2^CNTW - 1` (R6, R22, R32). -/
def maxCount : Nat := 2 ^ 64 - 1

/-- `PADBIT`: the value of the unused low bits of the last output byte (R6, R43). -/
def padBit : Bool := false

end Sys2Proof.Config
end

