-- ==== Sys2Proof/Syntax.lean ====
section
/-! DEFINITION. The sixteen commands of spec/30_encoding.md R63, one constructor per row of the opcode table. Operands
stand as they travel on the wire (R61): an illegal operand value is a command with a defined effect (R74), not no command. -/

namespace Sys2Proof

/-- A command of the HBSC command set, with its operand fields as bytes of the command stream carry them. -/
inductive Instr where
  /-- `NOP` (0x00, R160). -/
  | nop
  /-- `RESET` (0x01, R161). -/
  | reset
  /-- `RDREG r` (0x02, R162): `r` is a register number. -/
  | rdreg (r : Byte)
  /-- `ENC_INIT` (0x10, R110). -/
  | encInit
  /-- `CT_CLEAR` (0x11, R111). -/
  | ctClear
  /-- `CT_SET sym, len, code` (0x12, R112): the code word travels in `ceil(len/8)` bytes. -/
  | ctSet (sym len : Byte) (codebytes : List Byte)
  /-- `ENC_SYM sym` (0x13, R114). -/
  | encSym (sym : Byte)
  /-- `ENC_FLUSH` (0x14, R115). -/
  | encFlush
  /-- `DEC_INIT` (0x20, R130). -/
  | decInit
  /-- `TREE_CLEAR` (0x21, R131). -/
  | treeClear
  /-- `TREE_LEAF idx, sym` (0x22, R132). -/
  | treeLeaf (idx : BitVec 16) (sym : Byte)
  /-- `TREE_INT idx, left, right` (0x23, R133). -/
  | treeInt (idx left right : BitVec 16)
  /-- `TREE_ROOT idx` (0x24, R134). -/
  | treeRoot (idx : BitVec 16)
  /-- `DEC_BIT b` (0x25, R137): `a` is the operand byte, the bit is its bit 0. -/
  | decBit (a : Byte)
  /-- `DEC_BYTE v, n` (0x26, R138): the `n` high bits of `v`. -/
  | decByte (v n : Byte)
  /-- `DEC_END` (0x27, R139). -/
  | decEnd
  deriving DecidableEq, Repr

end Sys2Proof
end

