-- ==== Sys2Proof/WellFormed.lean ====
section
/-! DEFINITION. The conditions of spec/30_encoding.md R74 (and R61 for the number of code bytes): a command term is well
formed when its operands are legal values. -/

namespace Sys2Proof

/-- The twelve defined register numbers (spec/10_state.md R36, R74). -/
def definedRegisters : List Byte :=
  [0x00, 0x10, 0x11, 0x12, 0x13, 0x14, 0x20, 0x21, 0x22, 0x23, 0x24, 0x25]

/-- R74: a wire index is legal when it is at most 510. -/
def legalIndex (idx : BitVec 16) : Bool := idx.toNat < Config.numNodes

/-- R74: the `8*ceil(len/8) - len` low bits of the last code byte are 0. -/
def paddingIsZero (len : Nat) (codebytes : List Byte) : Bool :=
  (codebytes.getLastD 0).toNat % 2 ^ (8 * ceilDiv8 len - len) == 0

/-- The operand conditions of R74; for `CT_SET` also that the term carries `ceil(len/8)` code bytes (R61), which every
decoded command does. -/
def Instr.wellFormed : Instr → Bool
  | .nop => true
  | .reset => true
  | .rdreg r => definedRegisters.contains r
  | .encInit => true
  | .ctClear => true
  | .ctSet _ len codebytes =>
      len != 0 && codebytes.length == ceilDiv8 len.toNat && paddingIsZero len.toNat codebytes
  | .encSym _ => true
  | .encFlush => true
  | .decInit => true
  | .treeClear => true
  | .treeLeaf idx _ => legalIndex idx
  | .treeInt idx left right => legalIndex idx && legalIndex left && legalIndex right
  | .treeRoot idx => legalIndex idx
  | .decBit a => a.toNat < 2
  | .decByte _ n => 1 ≤ n.toNat && n.toNat ≤ 8
  | .decEnd => true

end Sys2Proof
end

