-- ==== Sys2Proof/Decode.lean ====
section
/-! DEFINITION. The command encoding of spec/30_encoding.md: the opcode map (R63), command lengths (R60), operand assembly
(R61, R62), the three verdicts (R75), and the encoder (assembler) written from the same tables. -/

namespace Sys2Proof

/-- The seven formats of R61. -/
inductive Format where
  | Z | B | DB | TR | TL | TI | CT
  deriving DecidableEq, Repr

/-- The three verdicts of a byte-level decode (R75). -/
inductive Verdict where
  /-- A command, with its length in bytes. -/
  | command (i : Instr) (len : Nat)
  /-- An illegal command: its opcode byte and its length in bytes. -/
  | illegal (op : Byte) (len : Nat)
  /-- Fewer bytes than the command's length: nothing is executed (R75). -/
  | incomplete
  deriving DecidableEq, Repr

/-- One line of the opcode map R63. `read` builds the command from its bytes, the opcode byte being byte 0. -/
structure OpcodeRow where
  opcode : Byte
  format : Format
  read : List Byte → Instr

/-- The two bytes at offset `k` as a big-endian 16-bit field (R45, R62). -/
def field16 (bytes : List Byte) (k : Nat) : BitVec 16 := bytes.getD k 0 ++ bytes.getD (k + 1) 0

/-- The high byte of a 16-bit field, sent first (R45). -/
def hiByte (v : BitVec 16) : Byte := v.extractLsb' 8 8

/-- The low byte of a 16-bit field, sent second (R45). -/
def loByte (v : BitVec 16) : Byte := v.extractLsb' 0 8

/-- `code[i] = codebytes[floor(i/8)][7 - (i mod 8)]` for `0 <= i < len` (R62). -/
def codeBits (len : Nat) (codebytes : List Byte) : Bits :=
  (List.range len).map fun i => (codebytes.getD (i / 8) 0).getLsbD (7 - i % 8)

/-- The byte whose bit `7 - t` is `f t`: first bit most significant (R42). -/
def byteOfBits (f : Nat → Bool) : Byte := BitVec.ofBoolListBE [f 0, f 1, f 2, f 3, f 4, f 5, f 6, f 7]

/-- A bit sequence packed into bytes: bit `k` in byte `floor(k/8)` at bit `7 - (k mod 8)` (R42), the unused low bits of the
last byte `PADBIT` (R43). -/
def packBits (w : Bits) : List Byte :=
  (List.range (ceilDiv8 w.length)).map fun j => byteOfBits fun t => w.getD (8 * j + t) Config.padBit

/-- The opcode map R63, sixteen rows. -/
def opcodeRows : List OpcodeRow :=
  [ ⟨0x00, .Z,  fun _ => .nop⟩,
    ⟨0x01, .Z,  fun _ => .reset⟩,
    ⟨0x02, .B,  fun b => .rdreg (b.getD 1 0)⟩,
    ⟨0x10, .Z,  fun _ => .encInit⟩,
    ⟨0x11, .Z,  fun _ => .ctClear⟩,
    ⟨0x12, .CT, fun b => .ctSet (b.getD 1 0) (b.getD 2 0) ((b.drop 3).take (ceilDiv8 (b.getD 2 0).toNat))⟩,
    ⟨0x13, .B,  fun b => .encSym (b.getD 1 0)⟩,
    ⟨0x14, .Z,  fun _ => .encFlush⟩,
    ⟨0x20, .Z,  fun _ => .decInit⟩,
    ⟨0x21, .Z,  fun _ => .treeClear⟩,
    ⟨0x22, .TL, fun b => .treeLeaf (field16 b 1) (b.getD 3 0)⟩,
    ⟨0x23, .TI, fun b => .treeInt (field16 b 1) (field16 b 3) (field16 b 5)⟩,
    ⟨0x24, .TR, fun b => .treeRoot (field16 b 1)⟩,
    ⟨0x25, .B,  fun b => .decBit (b.getD 1 0)⟩,
    ⟨0x26, .DB, fun b => .decByte (b.getD 1 0) (b.getD 2 0)⟩,
    ⟨0x27, .Z,  fun _ => .decEnd⟩ ]

/-- The row of an opcode byte; selection is by the whole byte (R63), none for the 240 undefined ones (R73). -/
def opcodeRow? (op : Byte) : Option OpcodeRow := opcodeRows.find? (·.opcode == op)

/-- The length of a command of a format (R60, R61); for format `CT` it depends on the third byte, none while that byte has
not arrived. -/
def Format.length? (f : Format) (bytes : List Byte) : Option Nat :=
  match f with
  | .Z => some 1
  | .B => some 2
  | .DB => some 3
  | .TR => some 3
  | .TL => some 4
  | .TI => some 7
  | .CT => (bytes[2]?).map fun len => 3 + ceilDiv8 len.toNat

/-- The command at the head of the command stream, its operands read as they stand. Only an undefined opcode is `illegal`
here: one byte long (R73). Legality of operand values is `decode`'s and the meanings' business. -/
def fetch (bytes : List Byte) : Verdict :=
  match bytes with
  | [] => .incomplete
  | op :: _ =>
    match opcodeRow? op with
    | none => .illegal op 1
    | some row =>
      match row.format.length? bytes with
      | none => .incomplete
      | some n => if bytes.length < n then .incomplete else .command (row.read bytes) n

/-- The opcode byte of a command (R63). -/
def Instr.opcode : Instr → Byte
  | .nop => 0x00
  | .reset => 0x01
  | .rdreg _ => 0x02
  | .encInit => 0x10
  | .ctClear => 0x11
  | .ctSet _ _ _ => 0x12
  | .encSym _ => 0x13
  | .encFlush => 0x14
  | .decInit => 0x20
  | .treeClear => 0x21
  | .treeLeaf _ _ => 0x22
  | .treeInt _ _ _ => 0x23
  | .treeRoot _ => 0x24
  | .decBit _ => 0x25
  | .decByte _ _ => 0x26
  | .decEnd => 0x27

/-- The five encoder commands (R10, R63). -/
def Instr.isEncoder : Instr → Bool
  | .encInit => true
  | .ctClear => true
  | .ctSet _ _ _ => true
  | .encSym _ => true
  | .encFlush => true
  | .nop => false
  | .reset => false
  | .rdreg _ => false
  | .decInit => false
  | .treeClear => false
  | .treeLeaf _ _ => false
  | .treeInt _ _ _ => false
  | .treeRoot _ => false
  | .decBit _ => false
  | .decByte _ _ => false
  | .decEnd => false

/-- The eight decoder commands (R10, R63). -/
def Instr.isDecoder : Instr → Bool
  | .decInit => true
  | .treeClear => true
  | .treeLeaf _ _ => true
  | .treeInt _ _ _ => true
  | .treeRoot _ => true
  | .decBit _ => true
  | .decByte _ _ => true
  | .decEnd => true
  | .nop => false
  | .reset => false
  | .rdreg _ => false
  | .encInit => false
  | .ctClear => false
  | .ctSet _ _ _ => false
  | .encSym _ => false
  | .encFlush => false

/-- The byte-level decode of R75: a command, an illegal command, each with its length, or `incomplete`. A defined opcode
with an illegal operand value is an illegal command of its full length (R74). -/
def decode (bytes : List Byte) : Verdict :=
  match fetch bytes with
  | .command i n => if i.wellFormed then .command i n else .illegal i.opcode n
  | .illegal op n => .illegal op n
  | .incomplete => .incomplete

/-- The operand bytes of a command, first byte first (R61). -/
def Instr.operandBytes : Instr → List Byte
  | .nop => []
  | .reset => []
  | .rdreg r => [r]
  | .encInit => []
  | .ctClear => []
  | .ctSet sym len codebytes => sym :: len :: codebytes
  | .encSym sym => [sym]
  | .encFlush => []
  | .decInit => []
  | .treeClear => []
  | .treeLeaf idx sym => [hiByte idx, loByte idx, sym]
  | .treeInt idx left right => [hiByte idx, loByte idx, hiByte left, loByte left, hiByte right, loByte right]
  | .treeRoot idx => [hiByte idx, loByte idx]
  | .decBit a => [a]
  | .decByte v n => [v, n]
  | .decEnd => []

/-- The bytes of a command on the command stream (R61): the opcode byte, then the operand fields. -/
def encode (i : Instr) : List Byte := i.opcode :: i.operandBytes

/-- `CT_SET sym, "code"` as the assembler writes it: `len` and the code bytes derived from the code word (R62, R80). -/
def Instr.ctSetOf (sym : Byte) (code : Bits) : Instr := .ctSet sym (BitVec.ofNat 8 code.length) (packBits code)

/-- The length of the command a verdict names; an incomplete one has none. -/
def Verdict.length : Verdict → Nat
  | .command _ n => n
  | .illegal _ n => n
  | .incomplete => 0

/-- The longest command is a `CT_SET` of a 255-bit code word: 35 bytes (R61). -/
def longestCommand : Nat := 35

/-- The bytes of a word of the opcode table's numbering: bits 7..0 are the first byte; bits above `nbits` are 0. -/
def tableBytes (nbits w : Nat) : List Byte :=
  (List.range longestCommand).map fun k => BitVec.ofNat 8 ((w % 2 ^ nbits) / 2 ^ (8 * k))

/-- The instruction the decoder reads from a word numbered as the opcode table numbers it. -/
def decodeTableWord (nbits w : Nat) : Option Instr :=
  match fetch (tableBytes nbits w) with
  | .command i _ => some i
  | .illegal _ _ => none
  | .incomplete => none

/-- The bytes that the command at the head of `bytes` occupies (R60, R73); nothing while it is incomplete. -/
def headCommandBytes (bytes : List Byte) : List Byte := bytes.take (fetch bytes).length

/-- The leading bytes of `bytes` that form whole commands, at most `fuel` of them (R60, R73): what stands before the first
incomplete command. -/
def leadingCommandBytes (fuel : Nat) (bytes : List Byte) : List Byte :=
  match fuel with
  | 0 => []
  | fuel + 1 => headCommandBytes bytes ++ leadingCommandBytes fuel (bytes.drop (fetch bytes).length)

/-- `bytes` without the partly received command at its end, if any (R75): each command is at least one byte long, so there are
at most as many as bytes. -/
def wholeCommandBytes (bytes : List Byte) : List Byte := leadingCommandBytes bytes.length bytes

end Sys2Proof
end

