-- ==== Sys2Proof/Machine/State.lean ====
section
/-! DEFINITION. The state of the block as plain data (spec/10_state.md R10: system, encoder and decoder state), the port
streams (spec/20_memory.md R40) and the reset state (R38). -/

namespace Sys2Proof.Machine

/-- A table memory addressed by entry index (R40): the listed entries, index strictly rising. An index not listed holds no
entry: `valid = 0` in `CT` (R15), `kind = INVALID` in `TREE` (R25). Assumption 5. -/
abbrev Table (α : Type) := List (Nat × α)

/-- A valid entry of `CT` (R15): the code word; `len` is its length. -/
structure CodeEntry where
  code : Bits
  deriving DecidableEq, Repr

/-- A written entry of `TREE` (R25): the kinds `LEAF` and `INTERNAL`, each with the fields meaningful for it. -/
inductive Node where
  | leaf (sym : Byte)
  | internal (left right : Idx)
  deriving DecidableEq, Repr

/-- `ROOT` (R27). -/
structure Root where
  present : Bool
  idx : Idx
  deriving DecidableEq, Repr

/-- `ENC_ST` (R17): 0 `OPEN`, 1 `DONE`, 2 `ERROR`; the value 3 is never held. -/
inductive EncSt where
  | streamOpen
  | done
  | error
  deriving DecidableEq, Repr

/-- `DEC_ST` (R28): 0 `RUN`, 1 `DONE`, 2 `ERROR`; the value 3 is never held. -/
inductive DecSt where
  | run
  | done
  | error
  deriving DecidableEq, Repr

/-- The causes of spec/60_exceptions.md R170. -/
inductive Cause where
  | allocationFailure
  | symbolNotInCodeTable
  | malformedStream
  | emptyTreeNonEmptyStream
  | illegalCommand
  | invalidNode
  | lengthOverflow
  deriving DecidableEq, Repr

/-- What `raise X(info)` carries (R172): the cause and its information word. -/
structure Raised where
  cause : Cause
  info : Word
  deriving DecidableEq, Repr

/-- A response record (spec/30_encoding.md R78): `code` 0 is success. -/
structure Response where
  code : Byte
  info : Word
  deriving DecidableEq, Repr

/-- The twelve registers of R36. -/
inductive Reg where
  | sysStatus
  | encStatus
  | encEinfo
  | encBitlen
  | encBuf
  | encOutcnt
  | decStatus
  | decEinfo
  | decBitcnt
  | decNode
  | decRoot
  | decOutcnt
  deriving DecidableEq, Repr

/-- Encoder state, group (b) of R10. -/
structure Enc where
  /-- `CT` (R15). -/
  ct : Table CodeEntry
  /-- `ENC_ST` (R17). -/
  st : EncSt
  /-- `ENC_ECODE` (R18). -/
  ecode : Byte
  /-- `ENC_EINFO` (R19). -/
  einfo : Word
  /-- `ACC` (R20). -/
  acc : Byte
  /-- `FILL` (R21). -/
  fill : BitVec 3
  /-- `BITLEN` (R22). -/
  bitlen : Word
  /-- `ENC_OUT`, oldest byte first (R23). -/
  out : List Byte
  deriving DecidableEq, Repr

/-- Decoder state, group (c) of R10. -/
structure Dec where
  /-- `TREE` (R25). -/
  tree : Table Node
  /-- `ROOT` (R27). -/
  root : Root
  /-- `NODE` (R29). -/
  node : Idx
  /-- `MID` (R30). -/
  mid : Bool
  /-- `DEC_ST` (R28). -/
  st : DecSt
  /-- `DEC_ECODE` (R31). -/
  ecode : Byte
  /-- `DEC_EINFO` (R31). -/
  einfo : Word
  /-- `BITCNT` (R32). -/
  bitcnt : Word
  /-- `DEC_OUT`, oldest symbol first (R33). -/
  out : List Byte
  deriving DecidableEq, Repr

/-- The block's state (R10) and its ports (R40). -/
structure State where
  /-- `CMDERR` (R14), group (a) of R10. -/
  cmderr : Bool
  enc : Enc
  dec : Dec
  /-- The command stream: bytes presented and not yet consumed, next byte first (R40, R60). DESIGN CHOICE, assumption 1. -/
  cmdIn : List Byte
  /-- The response stream, oldest record first (R40, R78). DESIGN CHOICE, assumption 2. -/
  responses : List Response
  /-- The reset input (spec/70_reset_and_hazards.md R200). DESIGN CHOICE, assumption 3. -/
  resetIn : Bool
  deriving DecidableEq, Repr

/-- Reasons a step could stop with a fault. There is none: the block reports every error in the response of the failing
command and goes on (R175, R179; assumption 12). -/
inductive Fault where
  deriving DecidableEq, Repr

/-- Reasons a step could be refused. -/
inductive Refusal where
  /-- Raised by an arm of `exec` whose instruction has no meaning yet (safe); no arm of this model does so. -/
  | notModelled (mnemonic : String)
  deriving DecidableEq, Repr

/-- The encoder after reset (R38). -/
def Enc.reset : Enc :=
  { ct := [], st := .streamOpen, ecode := 0, einfo := 0, acc := 0, fill := 0, bitlen := 0, out := [] }

/-- The decoder after reset (R38). -/
def Dec.reset : Dec :=
  { tree := [], root := ⟨false, 0⟩, node := 0, mid := false, st := .run, ecode := 0, einfo := 0, bitcnt := 0, out := [] }

/-- The machine right after reset (R38, R200): the block waits for the first opcode byte. -/
def State.reset : State :=
  { cmderr := false, enc := Enc.reset, dec := Dec.reset, cmdIn := [], responses := [], resetIn := false }

end Sys2Proof.Machine
end

