-- ==== Sys2Proof/Machine/Operands.lean ====
section
/-! DEFINITION. Every operand form of spec/30_encoding.md R61, R62 with its legality test (R74): the operand's value, or none
when the wire value is illegal. -/

namespace Sys2Proof.Machine

/-- `idx`, `left`, `right` (R62): a 16-bit field required to be at most 510, a 9-bit tree-memory index. -/
def treeIndex? (field : BitVec 16) : Option Idx :=
  if field.toNat ≤ 510 then some (field.setWidth 9) else none

/-- `len` and `code` of `CT_SET` (R62, R74): 1 to 255 bits, padding bits 0. A term that does not carry `ceil(len/8)` code
bytes is no command of the wire and is treated as illegal (assumption 7). -/
def codeWord? (len : Byte) (codebytes : List Byte) : Option Bits :=
  if len.toNat = 0 then none
  else if codebytes.length ≠ ceilDiv8 len.toNat then none
  else if (codebytes.getLastD 0).toNat % 2 ^ (8 * ceilDiv8 len.toNat - len.toNat) ≠ 0 then none
  else some (codeBits len.toNat codebytes)

/-- `b` of `DEC_BIT` (R62, R74): bit 0 of the operand byte, bits 7:1 must be 0. -/
def bitOperand? (a : Byte) : Option Bool :=
  if a.extractLsb' 1 7 = 0 then some (a.getLsbD 0) else none

/-- The `n` most significant bits of `v`, most significant first (R138). -/
def topBits (v : Byte) (n : Nat) : Bits := (List.range n).map fun k => v.getLsbD (7 - k)

/-- `v` and `n` of `DEC_BYTE` (R74, R138): `1 <= n <= 8`; the low `8 - n` bits of `v` are not examined. -/
def streamBits? (v n : Byte) : Option Bits :=
  if n.toNat = 0 ∨ n.toNat > 8 then none else some (topBits v n.toNat)

/-- `r` of `RDREG` (R36, R74): the register of a number, none for a reserved number. -/
def register? (r : Byte) : Option Reg :=
  if r = 0x00 then some .sysStatus
  else if r = 0x10 then some .encStatus
  else if r = 0x11 then some .encEinfo
  else if r = 0x12 then some .encBitlen
  else if r = 0x13 then some .encBuf
  else if r = 0x14 then some .encOutcnt
  else if r = 0x20 then some .decStatus
  else if r = 0x21 then some .decEinfo
  else if r = 0x22 then some .decBitcnt
  else if r = 0x23 then some .decNode
  else if r = 0x24 then some .decRoot
  else if r = 0x25 then some .decOutcnt
  else none

end Sys2Proof.Machine
end

