-- ==== Sys2Proof/Machine/Flags.lean ====
section
/-! DEFINITION. The block's flags and status words (spec/10_state.md R36, R37): the numeric codes of the state fields and
causes, and the value each register reads as (spec/43_system.md R162). -/

namespace Sys2Proof.Machine

/-- The 2-bit value of `ENC_ST` (R17). -/
def EncSt.code : EncSt → BitVec 2
  | .streamOpen => 0
  | .done => 1
  | .error => 2

/-- The 2-bit value of `DEC_ST` (R28). -/
def DecSt.code : DecSt → BitVec 2
  | .run => 0
  | .done => 1
  | .error => 2

/-- The cause codes of spec/60_exceptions.md R170. -/
def Cause.code : Cause → Byte
  | .allocationFailure => 1
  | .symbolNotInCodeTable => 2
  | .malformedStream => 3
  | .emptyTreeNonEmptyStream => 4
  | .illegalCommand => 5
  | .invalidNode => 6
  | .lengthOverflow => 7

/-- One bit as a 64-bit value. -/
def flagWord (b : Bool) : Word := if b then 1 else 0

/-- `|s|` as a 64-bit register value (assumption 8). -/
def lengthWord (l : List Byte) : Word := BitVec.ofNat 64 l.length

/-- The value `RDREG` returns for a register (R162). -/
def Reg.value (r : Reg) (s : State) : Word :=
  match r with
  | .sysStatus => flagWord s.cmderr
  | .encStatus => s.enc.ecode.setWidth 64 * 256 + s.enc.st.code.setWidth 64
  | .encEinfo => s.enc.einfo
  | .encBitlen => s.enc.bitlen
  | .encBuf => s.enc.fill.setWidth 64 * 256 + s.enc.acc.setWidth 64
  | .encOutcnt => lengthWord s.enc.out
  | .decStatus => s.dec.ecode.setWidth 64 * 256 + flagWord s.dec.mid * 4 + s.dec.st.code.setWidth 64
  | .decEinfo => s.dec.einfo
  | .decBitcnt => s.dec.bitcnt
  | .decNode => s.dec.node.setWidth 64
  | .decRoot => flagWord s.dec.root.present * 32768 + s.dec.root.idx.setWidth 64
  | .decOutcnt => lengthWord s.dec.out

end Sys2Proof.Machine
end

