-- ==== Sys2Proof/Machine/Ops.lean ====
section
/-! DEFINITION. The named operations over the block's state: table memories, responses, error entry (spec/60_exceptions.md
R176 to R178, R181) and the way out of an error (R183), the encoder's `PushBit` (spec/41_encoder.md R113), the decoder's
`DecStep` (spec/42_decoder.md R136), hardware reset (spec/70_reset_and_hazards.md R200). -/

namespace Sys2Proof.Machine

/-! ### Table memories (spec/20_memory.md R40, R47: one whole entry at a time) -/

/-- `MemRead(space:k, 1)` (R7): none when nothing is written at `k`. -/
def Table.read {α : Type} (t : Table α) (k : Nat) : Option α :=
  match t with
  | [] => none
  | (k', e) :: rest => if k' = k then some e else Table.read rest k

/-- `MemWrite(space:k, 1, e)` (R7): the earlier entry at `k` is replaced whole. -/
def Table.write {α : Type} (t : Table α) (k : Nat) (e : α) : Table α :=
  match t with
  | [] => [(k, e)]
  | (k', e') :: rest =>
    if k < k' then (k, e) :: (k', e') :: rest
    else if k = k' then (k, e) :: rest
    else (k', e') :: Table.write rest k e

/-- The table with no entry written. -/
def Table.empty {α : Type} : Table α := []

/-- The canonical form: indices strictly rising and below the memory's size. -/
abbrev Table.wf {α : Type} (size : Nat) (t : Table α) : Prop :=
  (t.map Prod.fst).Pairwise (· < ·) ∧ ∀ k ∈ t.map Prod.fst, k < size

/-- The field `len` of a valid `CT` entry (R15). -/
def CodeEntry.len (e : CodeEntry) : Nat := e.code.length

/-! ### Responses (spec/30_encoding.md R78) -/

/-- One response record is appended to the response stream. -/
def respond (r : Response) (s : State) : State := { s with responses := s.responses ++ [r] }

/-- `respond ok(info)` (R7, R78). -/
def respondOk (info : Word) (s : State) : State := respond ⟨0, info⟩ s

/-- `respond fail(code, info)` (R7, R78). -/
def respondFail (code : Byte) (info : Word) (s : State) : State := respond ⟨code, info⟩ s

/-- The nine bytes of a response record: `code`, then `info` big-endian (R78). -/
def Response.bytes (r : Response) : List Byte :=
  [r.code, r.info.extractLsb' 56 8, r.info.extractLsb' 48 8, r.info.extractLsb' 40 8, r.info.extractLsb' 32 8,
   r.info.extractLsb' 24 8, r.info.extractLsb' 16 8, r.info.extractLsb' 8 8, r.info.extractLsb' 0 8]

/-! ### Errors: entry (R176 to R178), repeat (R181), return (R183) -/

/-- What `raise` writes in the encoder (R176). -/
def Enc.latch (r : Raised) (e : Enc) : Enc := { e with st := .error, ecode := r.cause.code, einfo := r.info }

/-- What `raise` writes in the decoder (R177). -/
def Dec.latch (r : Raised) (d : Dec) : Dec := { d with st := .error, ecode := r.cause.code, einfo := r.info }

/-- Error entry in the encoder (R176). -/
def encRaise (r : Raised) (s : State) : State := respondFail r.cause.code r.info { s with enc := s.enc.latch r }

/-- Error entry in the decoder (R177). -/
def decRaise (r : Raised) (s : State) : State := respondFail r.cause.code r.info { s with dec := s.dec.latch r }

/-- `Illegal(op)` (R178): sets `CMDERR`, answers `fail(5, op)`, changes nothing else. -/
def illegal (op : Byte) (s : State) : State :=
  respondFail Cause.illegalCommand.code (op.setWidth 64) { s with cmderr := true }

/-- A stream command of the encoder in `ERROR` repeats the latched error (R181). -/
def encRepeat (s : State) : State := respondFail s.enc.ecode s.enc.einfo s

/-- A stream command of the decoder in `ERROR` repeats the latched error (R181). -/
def decRepeat (s : State) : State := respondFail s.dec.ecode s.dec.einfo s

/-- `EncInitState()` (spec/41_encoder.md R110): with reset, the only way out of `ERROR` and `DONE` (R183). -/
def Enc.initState (e : Enc) : Enc :=
  { e with st := .streamOpen, ecode := 0, einfo := 0, acc := 0, fill := 0, bitlen := 0, out := [] }

/-- `DecInitState()` (spec/42_decoder.md R130): with reset, the only way out of `ERROR` and `DONE` (R183). -/
def Dec.initState (d : Dec) : Dec :=
  { d with node := d.root.idx, mid := false, st := .run, ecode := 0, einfo := 0, bitcnt := 0, out := [] }

/-! ### Encoder primitives -/

/-- `v[i] <- b`. -/
def setBit (v : Byte) (i : Nat) (b : Bool) : Byte :=
  if b then v ||| ((1 : Byte) <<< i) else v &&& ~~~((1 : Byte) <<< i)

/-- `PushBit(b)` (R113): the byte is emitted in the step in which its eighth bit arrives. -/
def Enc.pushBit (b : Bool) (e : Enc) : Enc :=
  let acc := setBit e.acc (7 - e.fill.toNat) b
  if e.fill = 7 then
    { e with out := e.out ++ [acc], acc := 0, fill := 0, bitlen := e.bitlen + 1 }
  else
    { e with acc := acc, fill := e.fill + 1, bitlen := e.bitlen + 1 }

/-- `for i in 0..len-1: PushBit(code[i])` (spec/41_encoder.md R114). -/
def Enc.pushBits (w : Bits) (e : Enc) : Enc :=
  match w with
  | [] => e
  | b :: rest => Enc.pushBits rest (e.pushBit b)

/-- The flush of R115: the partial byte, if any, leaves the bit buffer with its zero padding, and the stream is closed. -/
def Enc.flush (e : Enc) : Enc :=
  { e with out := if e.fill = 0 then e.out else e.out ++ [e.acc], acc := 0, fill := 0, st := .done }

/-! ### Decoder primitives -/

/-- A leaf was reached (R136): its symbol is emitted, the state returns to the root, the bit is counted. -/
def Dec.emit (sym : Byte) (d : Dec) : Dec :=
  { d with out := d.out ++ [sym], node := d.root.idx, mid := false, bitcnt := d.bitcnt + 1 }

/-- An internal child was reached (R136): it becomes the current node, the bit is counted. -/
def Dec.descend (nxt : Idx) (d : Dec) : Dec :=
  { d with node := nxt, mid := true, bitcnt := d.bitcnt + 1 }

/-- The entry a transition starts from (R30, R136): `NODE` when mid-path, else `ROOT.idx` read afresh. -/
def Dec.cur (d : Dec) : Idx := if d.mid then d.node else d.root.idx

/-- `DecStep(b)` (R136), the tests in the order written there. -/
def Dec.decStep (b : Bool) (d : Dec) : Except Raised Dec :=
  if d.bitcnt.toNat = Config.maxCount then .error ⟨.lengthOverflow, d.bitcnt⟩
  else if d.root.present = false then .error ⟨.emptyTreeNonEmptyStream, d.bitcnt⟩
  else
    match d.tree.read d.cur.toNat with
    | none => .error ⟨.invalidNode, d.cur.setWidth 64⟩
    | some (.leaf sym) =>
      if d.mid then .error ⟨.invalidNode, d.cur.setWidth 64⟩
      else if b then .error ⟨.malformedStream, d.bitcnt⟩
      else .ok (d.emit sym)
    | some (.internal left right) =>
      match d.tree.read (if b then right else left).toNat with
      | none => .error ⟨.invalidNode, (if b then right else left).setWidth 64⟩
      | some (.leaf sym) => .ok (d.emit sym)
      | some (.internal _ _) => .ok (d.descend (if b then right else left))

/-- `DecStep` over several bits in stream order (R138): it ends at the first bit that raises, and the bits before it keep
their effect. -/
def Dec.feed (w : Bits) (d : Dec) : Dec × Option Raised :=
  match w with
  | [] => (d, none)
  | b :: rest =>
    match d.decStep b with
    | .error r => (d, some r)
    | .ok d' => Dec.feed rest d'

/-- The body of `DEC_BIT` and `DEC_BYTE` in state `RUN` (R137, R138): consume the bits, then answer. -/
def decConsume (w : Bits) (s : State) : State :=
  match s.dec.feed w with
  | (d, none) => respondOk 0 { s with dec := d }
  | (d, some r) => decRaise r { s with dec := d }

/-! ### The command port and reset -/

/-- The first `n` bytes of the command stream are consumed (R60, R73, R74). -/
def consume (n : Nat) (s : State) : State := { s with cmdIn := s.cmdIn.drop n }

/-- The effect of the command `RESET` on state (spec/43_system.md R161), its response apart. -/
def resetBlock (s : State) : State := { s with cmderr := false, enc := Enc.reset, dec := Dec.reset }

/-- Hardware reset (R200): the reset state; no response; a partly received command is discarded, wherever on the command
stream it starts. Whole commands before it stay on the port (assumption 3). -/
def hardwareReset (s : State) : State :=
  { resetBlock s with cmdIn := wholeCommandBytes s.cmdIn, resetIn := false }

end Sys2Proof.Machine
end

