-- ==== Sys2Proof/Machine/Decoder.lean ====
section
/-! DEFINITION. The decoder commands (spec/42_decoder.md): `DEC_INIT`, `TREE_CLEAR`, `TREE_LEAF`, `TREE_INT`, `TREE_ROOT`,
`DEC_BIT`, `DEC_BYTE`, `DEC_END`. -/

namespace Sys2Proof.Machine

/-- `DEC_INIT` (R130). -/
def execDecInit (s : State) : Host.Outcome State Fault Refusal :=
  .next (respondOk 0 { s with dec := s.dec.initState })

/-- `TREE_CLEAR` (R131). -/
def execTreeClear (s : State) : Host.Outcome State Fault Refusal :=
  .next (respondOk 0 { s with dec := { s.dec with tree := Table.empty, root := ⟨false, 0⟩ } })

/-- `TREE_LEAF idx, sym` (R132). -/
def execTreeLeaf (idx : BitVec 16) (sym : Byte) (s : State) : Host.Outcome State Fault Refusal :=
  match treeIndex? idx with
  | none => .next (illegal 0x22 s)
  | some i => .next (respondOk 0 { s with dec := { s.dec with tree := s.dec.tree.write i.toNat (.leaf sym) } })

/-- `TREE_INT idx, left, right` (R133): refused when any of the three indices exceeds 510. -/
def execTreeInt (idx left right : BitVec 16) (s : State) : Host.Outcome State Fault Refusal :=
  match treeIndex? idx, treeIndex? left, treeIndex? right with
  | some i, some l, some r =>
    .next (respondOk 0 { s with dec := { s.dec with tree := s.dec.tree.write i.toNat (.internal l r) } })
  | _, _, _ => .next (illegal 0x23 s)

/-- `TREE_ROOT idx` (R134). -/
def execTreeRoot (idx : BitVec 16) (s : State) : Host.Outcome State Fault Refusal :=
  match treeIndex? idx with
  | none => .next (illegal 0x24 s)
  | some i => .next (respondOk 0 { s with dec := { s.dec with root := ⟨true, i⟩ } })

/-- `DEC_BIT b` (R137): operand, latched error, `DONE`, then one transition. -/
def execDecBit (a : Byte) (s : State) : Host.Outcome State Fault Refusal :=
  match bitOperand? a with
  | none => .next (illegal 0x25 s)
  | some b =>
    match s.dec.st with
    | .error => .next (decRepeat s)
    | .done => .next (illegal 0x25 s)
    | .run => .next (decConsume [b] s)

/-- `DEC_BYTE v, n` (R138): operand, latched error, `DONE`, then up to eight transitions. -/
def execDecByte (v n : Byte) (s : State) : Host.Outcome State Fault Refusal :=
  match streamBits? v n with
  | none => .next (illegal 0x26 s)
  | some w =>
    match s.dec.st with
    | .error => .next (decRepeat s)
    | .done => .next (illegal 0x26 s)
    | .run => .next (decConsume w s)

/-- `DEC_END` (R139): the stream must not stop in the middle of a code word. -/
def execDecEnd (s : State) : Host.Outcome State Fault Refusal :=
  match s.dec.st with
  | .error => .next (decRepeat s)
  | .done => .next (respondOk (lengthWord s.dec.out) s)
  | .run =>
    if s.dec.mid then .next (decRaise ⟨.malformedStream, s.dec.bitcnt⟩ s)
    else .next (respondOk (lengthWord s.dec.out) { s with dec := { s.dec with st := .done } })

end Sys2Proof.Machine
end

