-- ==== Sys2Proof/Machine/Encoder.lean ====
section
/-! DEFINITION. The encoder commands (spec/41_encoder.md): `ENC_INIT`, `CT_CLEAR`, `CT_SET`, `ENC_SYM`, `ENC_FLUSH`. -/

namespace Sys2Proof.Machine

/-- `ENC_INIT` (R110). -/
def execEncInit (s : State) : Host.Outcome State Fault Refusal :=
  .next (respondOk 0 { s with enc := s.enc.initState })

/-- `CT_CLEAR` (R111). -/
def execCtClear (s : State) : Host.Outcome State Fault Refusal :=
  .next (respondOk 0 { s with enc := { s.enc with ct := Table.empty } })

/-- `CT_SET sym, len, code` (R112). -/
def execCtSet (sym len : Byte) (codebytes : List Byte) (s : State) : Host.Outcome State Fault Refusal :=
  match codeWord? len codebytes with
  | none => .next (illegal 0x12 s)
  | some code => .next (respondOk 0 { s with enc := { s.enc with ct := s.enc.ct.write sym.toNat ⟨code⟩ } })

/-- `ENC_SYM sym` (R114): the checks come before the first bit is pushed. -/
def execEncSym (sym : Byte) (s : State) : Host.Outcome State Fault Refusal :=
  match s.enc.st with
  | .error => .next (encRepeat s)
  | .done => .next (illegal 0x13 s)
  | .streamOpen =>
    match s.enc.ct.read sym.toNat with
    | none => .next (encRaise ⟨.symbolNotInCodeTable, sym.setWidth 64⟩ s)
    | some e =>
      if s.enc.bitlen.toNat + e.len > Config.maxCount then
        .next (encRaise ⟨.lengthOverflow, sym.setWidth 64⟩ s)
      else
        .next (respondOk (s.enc.pushBits e.code).bitlen { s with enc := s.enc.pushBits e.code })

/-- `ENC_FLUSH` (R115). -/
def execEncFlush (s : State) : Host.Outcome State Fault Refusal :=
  match s.enc.st with
  | .error => .next (encRepeat s)
  | .done => .next (respondOk s.enc.bitlen s)
  | .streamOpen => .next (respondOk s.enc.bitlen { s with enc := s.enc.flush })

end Sys2Proof.Machine
end

