-- ==== Sys2Proof/Machine/System.lean ====
section
/-! DEFINITION. The system commands (spec/43_system.md): `NOP`, `RESET`, `RDREG`. -/

namespace Sys2Proof.Machine

/-- `NOP` (R160). -/
def execNop (s : State) : Host.Outcome State Fault Refusal := .next (respondOk 0 s)

/-- `RESET` (R161). -/
def execReset (s : State) : Host.Outcome State Fault Refusal := .next (respondOk 0 (resetBlock s))

/-- `RDREG r` (R162). -/
def execRdreg (r : Byte) (s : State) : Host.Outcome State Fault Refusal :=
  match register? r with
  | none => .next (illegal 0x02 s)
  | some reg => .next (respondOk (reg.value s) s)

end Sys2Proof.Machine
end

