-- ==== Sys2Proof/Machine/Dispatch.lean ====
section
/-! DEFINITION. The dispatch: one arm per command (spec/30_encoding.md R63). -/

namespace Sys2Proof.Machine

/-- The effect of one command on the state, its bytes already consumed. -/
def exec (i : Instr) (s : State) : Host.Outcome State Fault Refusal :=
  match i with
  | .nop => Sys2Proof.Machine.execNop s
  | .reset => Sys2Proof.Machine.execReset s
  | .rdreg r => Sys2Proof.Machine.execRdreg r s
  | .encInit => Sys2Proof.Machine.execEncInit s
  | .ctClear => Sys2Proof.Machine.execCtClear s
  | .ctSet sym len codebytes => Sys2Proof.Machine.execCtSet sym len codebytes s
  | .encSym sym => Sys2Proof.Machine.execEncSym sym s
  | .encFlush => Sys2Proof.Machine.execEncFlush s
  | .decInit => Sys2Proof.Machine.execDecInit s
  | .treeClear => Sys2Proof.Machine.execTreeClear s
  | .treeLeaf idx sym => Sys2Proof.Machine.execTreeLeaf idx sym s
  | .treeInt idx left right => Sys2Proof.Machine.execTreeInt idx left right s
  | .treeRoot idx => Sys2Proof.Machine.execTreeRoot idx s
  | .decBit a => Sys2Proof.Machine.execDecBit a s
  | .decByte v n => Sys2Proof.Machine.execDecByte v n s
  | .decEnd => Sys2Proof.Machine.execDecEnd s

end Sys2Proof.Machine
end

