-- ==== Sys2Proof/Machine/Step.lean ====
section
/-! DEFINITION. One step of the block: the next complete command of the command stream, executed atomically
(spec/20_memory.md R47, R50), or hardware reset when the reset input is asserted (spec/70_reset_and_hazards.md R200). -/

namespace Sys2Proof.Machine

/-- One step. An asserted reset input is served first. An undefined opcode is a one-byte illegal command (R73). While the
next command is incomplete the block waits: no response, no change of state (R75; assumption 4). -/
def step (s : State) : Host.Outcome State Fault Refusal :=
  if s.resetIn then .next (hardwareReset s)
  else
    match fetch s.cmdIn with
    | .command i n => exec i (consume n s)
    | .illegal op n => .next (illegal op (consume n s))
    | .incomplete => .next s

/-- `s` with the command of a word of the opcode table's numbering presented at the head of the command stream, so that the
next step runs exactly it (assumption 9). -/
def State.withFetchWord (s : State) (nbits w : Nat) : State :=
  { s with cmdIn := headCommandBytes (tableBytes nbits w) ++ s.cmdIn, resetIn := false }

end Sys2Proof.Machine
end

