-- ==== Sys2Proof/Machine/Port.lean ====
section
/-! DEFINITION. The host's side of the ports: presenting command bytes, asserting reset, running a command sequence, the
response bytes, the results of a run (spec/10_state.md R24, R34; spec/70_reset_and_hazards.md R216) and the pseudo-commands
of spec/30_encoding.md R81. -/

namespace Sys2Proof.Machine

/-- The host presents bytes on the command port (R60); they follow those already presented. -/
def present (bytes : List Byte) (s : State) : State := { s with cmdIn := s.cmdIn ++ bytes }

/-- The host asserts the reset input (R200). -/
def assertReset (s : State) : State := { s with resetIn := true }

/-- The response port as bytes: nine per record, in order (R50, R78). -/
def responseBytes (s : State) : List Byte := s.responses.flatMap Response.bytes

/-- A sequence of commands executed one after another (R50), stopping at the first that does not answer a next state. -/
def execAll (cmds : List Instr) (s : State) : Host.Outcome State Fault Refusal :=
  match cmds with
  | [] => .next s
  | i :: rest =>
    match exec i s with
    | .next s' => execAll rest s'
    | .fault f => .fault f
    | .refused r => .refused r

/-- The byte stream of a command sequence: the commands' bytes end to end (R46, R60). -/
def assemble (cmds : List Instr) : List Byte := cmds.flatMap encode

/-- The three forms of a result (R24, R34). -/
inductive RunResult (α : Type) where
  | none
  | ok (value : α)
  | fail (code : Byte) (info : Word)
  deriving DecidableEq, Repr

/-- `EncResult` (R24). -/
def encResult (s : State) : RunResult (List Byte × Word) :=
  match s.enc.st with
  | .streamOpen => .none
  | .done => .ok (s.enc.out, s.enc.bitlen)
  | .error => .fail s.enc.ecode s.enc.einfo

/-- `DecResult` (R34). -/
def decResult (s : State) : RunResult (List Byte) :=
  match s.dec.st with
  | .run => .none
  | .done => .ok s.dec.out
  | .error => .fail s.dec.ecode s.dec.einfo

/-- The bits of a byte, most significant first (R42). -/
def byteBits (b : Byte) : Bits := (List.range 8).map fun t => b.getLsbD (7 - t)

/-- The stream bits the encoder holds: those already emitted and the `FILL` bits waiting in `ACC` (R20, R21, R23). -/
def Enc.streamBits (e : Enc) : Bits := e.out.flatMap byteBits ++ (byteBits e.acc).take e.fill.toNat

/-! ### Pseudo-commands (R81) -/

/-- A code table: the code words of the symbols that have one (spec/00_scope.md R9). -/
abbrev CodeTable := List (Byte × Bits)

/-- The code word of a symbol in a code table, none outside its domain. -/
def codeOf (c : CodeTable) (sym : Byte) : Option Bits := (c.find? fun p => p.1 == sym).map Prod.snd

/-- The 256 symbols in ascending order (R6). -/
def allSymbols : List Byte := (List.range Config.numSymbols).map (BitVec.ofNat 8)

/-- `CT_LOAD` (R81): `CT_CLEAR`, then `CT_SET` for each listed symbol in ascending order. -/
def ctLoad (c : CodeTable) : List Instr :=
  .ctClear :: allSymbols.filterMap fun sym => (codeOf c sym).map (Instr.ctSetOf sym)

/-- An element of a `TREE_LOAD` listing: `L(sym)` or `I(left, right)` (R81). -/
inductive NodeListing where
  | L (sym : Byte)
  | I (left right : Nat)
  deriving DecidableEq, Repr

/-- The command that writes one listed node at an index (R81). -/
def NodeListing.command (e : NodeListing) (idx : Nat) : Instr :=
  match e with
  | .L sym => .treeLeaf (BitVec.ofNat 16 idx) sym
  | .I left right => .treeInt (BitVec.ofNat 16 idx) (BitVec.ofNat 16 left) (BitVec.ofNat 16 right)

/-- The node writes of a listing, ascending from an index (R81). -/
def nodeWrites (listing : List NodeListing) (idx : Nat) : List Instr :=
  match listing with
  | [] => []
  | e :: rest => e.command idx :: nodeWrites rest (idx + 1)

/-- `TREE_LOAD` (R81): `TREE_CLEAR`, the node writes, `TREE_ROOT 0`; with an empty list `TREE_CLEAR` alone. -/
def treeLoad (listing : List NodeListing) : List Instr :=
  match listing with
  | [] => [.treeClear]
  | e :: rest => .treeClear :: (nodeWrites (e :: rest) 0 ++ [.treeRoot 0])

/-- `ENC_BYTES` (R81). -/
def encBytes (symbols : List Byte) : List Instr := symbols.map .encSym

/-- `DEC_STREAM` (R81): whole bytes with `n = 8`, then the partial last byte. -/
def decStream (bytes : List Byte) (bitlen : Nat) : List Instr :=
  ((List.range (bitlen / 8)).map fun k => .decByte (bytes.getD k 0) 8)
    ++ (if bitlen % 8 = 0 then [] else [.decByte (bytes.getD (bitlen / 8) 0) (BitVec.ofNat 8 (bitlen % 8))])

end Sys2Proof.Machine
end

