-- ==== Sys2Proof/Machine/Construct.lean ====
section
/-! DEFINITION. The host-side reference functions of spec/40_host_construction.md (R90 to R102): the block does not execute
them; they fix what the host loads into `CT` and `TREE` and how it drives the block (spec/00_scope.md R4). All values are
mathematical (assumption 10). -/

namespace Sys2Proof.Machine

/-! ### Frequency Analyzer (R90) -/

/-- A FrequencyTable: a count for every symbol, with no enumeration order (R90). -/
abbrev FrequencyTable := Byte → Nat

/-- `Freq(S)`: the number of positions that hold the symbol (R90). -/
def freq (S : List Byte) : FrequencyTable := fun sym => S.count sym

/-- The symbols that participate downstream, those of count above 0, in ascending order (R90, R96). -/
def participants (f : FrequencyTable) : List Byte := allSymbols.filter fun sym => 0 < f sym

/-! ### Priority Queue (R92) -/

/-- A triple of the queue: item, priority, and how many inserts came before it (R92). -/
structure QueueItem (α : Type) where
  item : α
  priority : Nat
  seq : Nat
  deriving DecidableEq, Repr

/-- The queue: its triples, in no meaningful order, and the number of inserts made (R92). -/
structure PriorityQueue (α : Type) where
  items : List (QueueItem α)
  inserts : Nat
  deriving DecidableEq, Repr

/-- `create(capacity)`: the capacity is no limit, the queue grows on overflow (R92). -/
def PriorityQueue.create {α : Type} (_capacity : Nat) : PriorityQueue α := ⟨[], 0⟩

/-- `insert(Queue, item, priority)` (R92). -/
def PriorityQueue.insert {α : Type} (q : PriorityQueue α) (item : α) (priority : Nat) : PriorityQueue α :=
  ⟨⟨item, priority, q.inserts⟩ :: q.items, q.inserts + 1⟩

/-- `isEmpty(Queue)` (R92). -/
def PriorityQueue.isEmpty {α : Type} (q : PriorityQueue α) : Bool := q.items.isEmpty

/-- `size(Queue)` (R92). -/
def PriorityQueue.size {α : Type} (q : PriorityQueue α) : Nat := q.items.length

/-- `destroy(Queue)` (R92): nothing of it remains. -/
def PriorityQueue.destroy {α : Type} (_q : PriorityQueue α) : Unit := ()

/-- The lexicographic order on (priority, seq): first inserted first among equal priorities (R92). -/
def QueueItem.before {α : Type} (a b : QueueItem α) : Bool :=
  a.priority < b.priority || (a.priority == b.priority && a.seq < b.seq)

/-- The least triple of a list and the rest, none of an empty list. -/
def takeLeast {α : Type} (items : List (QueueItem α)) : Option (QueueItem α × List (QueueItem α)) :=
  match items with
  | [] => none
  | x :: rest =>
    match takeLeast rest with
    | none => some (x, [])
    | some (m, others) => if x.before m then some (x, m :: others) else some (m, x :: others)

/-- `extractMin(Queue)` (R92): the item of the least triple, and the queue without it; fails on an empty queue. -/
def PriorityQueue.extractMin {α : Type} (q : PriorityQueue α) : Option (α × PriorityQueue α) :=
  (takeLeast q.items).map fun m => (m.1.item, ⟨m.2, q.inserts⟩)

/-! ### Tree Builder (R95, R96) -/

/-- A HuffmanNode (R95): a `Leaf` with symbol and weight, or an `Internal` with weight and two children. -/
inductive HuffmanNode where
  | leaf (sym : Byte) (weight : Nat)
  | internal (weight : Nat) (left right : HuffmanNode)
  deriving DecidableEq, Repr

/-- The weight of a node (R95). -/
def HuffmanNode.weight : HuffmanNode → Nat
  | .leaf _ w => w
  | .internal w _ _ => w

/-- How many nodes the tree has (R96). -/
def HuffmanNode.size : HuffmanNode → Nat
  | .leaf _ _ => 1
  | .internal _ l r => 1 + l.size + r.size

/-- The greatest depth of a leaf (R96). -/
def HuffmanNode.depth : HuffmanNode → Nat
  | .leaf _ _ => 0
  | .internal _ l r => 1 + max l.depth r.depth

/-- The symbols of the leaves, left to right. -/
def HuffmanNode.symbols : HuffmanNode → List Byte
  | .leaf s _ => [s]
  | .internal _ l r => l.symbols ++ r.symbols

/-- The new Internal node of a merge: A, extracted first, on the left (R96). -/
def mergeNodes (a b : HuffmanNode) : HuffmanNode := .internal (a.weight + b.weight) a b

/-- The merge loop of R96: while the queue holds more than one item, the two least are merged and inserted back. -/
def mergeLoop (fuel : Nat) (q : PriorityQueue HuffmanNode) : PriorityQueue HuffmanNode :=
  match fuel with
  | 0 => q
  | fuel + 1 =>
    match q.extractMin with
    | none => q
    | some (a, q₁) =>
      match q₁.extractMin with
      | none => q
      | some (b, q₂) => mergeLoop fuel (q₂.insert (mergeNodes a b) (mergeNodes a b).weight)

/-- The queue the merge loop starts from: each symbol a Leaf keyed by its frequency, inserted in ascending order (R96). -/
def leafQueue (f : FrequencyTable) (syms : List Byte) : PriorityQueue HuffmanNode :=
  syms.foldl (fun q sym => q.insert (.leaf sym (f sym)) (f sym)) (PriorityQueue.create syms.length)

/-- `Tree(F)` (R96): the empty tree, a single Leaf, or the root left in the queue after the merges. The loop runs
`N - 1` times, so `N` is fuel enough. -/
def buildTree (f : FrequencyTable) : Option HuffmanNode :=
  match participants f with
  | [] => none
  | [sym] => some (.leaf sym (f sym))
  | syms => (mergeLoop syms.length (leafQueue f syms)).extractMin.map Prod.fst

/-! ### Code Table Generator (R98) -/

/-- `Walk(T, p)` (R98): `0` when descending left, `1` when descending right. -/
def walk (t : HuffmanNode) (p : Bits) : CodeTable :=
  match t with
  | .leaf sym _ => [(sym, p)]
  | .internal _ l r => walk l (p ++ [false]) ++ walk r (p ++ [true])

/-- `Codes(T)` (R98), with the single-leaf rule: the one-bit code `0`. -/
def codes (t : Option HuffmanNode) : CodeTable :=
  match t with
  | none => []
  | some (.leaf sym _) => [(sym, [false])]
  | some (.internal w l r) => walk (.internal w l r) []

/-- The total weighted code length `sum over s of F(s) * |C(s)|` (R108). -/
def weightedLength (f : FrequencyTable) (c : CodeTable) : Nat := (c.map fun p => f p.1 * p.2.length).sum

/-- The Kraft sum `sum of 2^(-|C(s)|)` (R108, marked there as general knowledge). -/
def kraftSum (c : CodeTable) : ℚ := (c.map fun p => (1 / 2 : ℚ) ^ p.2.length).sum

/-! ### Loading the block and using it (R99 to R102) -/

/-- `LoadCT(C)` (R99), the pseudo-command `CT_LOAD`. -/
def loadCT (c : CodeTable) : List Instr := ctLoad c

/-- The nodes of a tree in pre-order, numbered from `base`: a node, its whole left subtree, its whole right subtree (R100). -/
def preorder (t : HuffmanNode) (base : Nat) : List NodeListing :=
  match t with
  | .leaf sym _ => [.L sym]
  | .internal _ l r =>
    .I (base + 1) (base + 1 + l.size) :: (preorder l (base + 1) ++ preorder r (base + 1 + l.size))

/-- `LoadTree(T)` (R100), the pseudo-command `TREE_LOAD` of the pre-order listing. -/
def loadTree (t : Option HuffmanNode) : List Instr :=
  match t with
  | none => treeLoad []
  | some root => treeLoad (preorder root 0)

/-- `Encode(S, C)` (R101). -/
def encodeProgram (S : List Byte) (c : CodeTable) : List Instr :=
  loadCT c ++ (.encInit :: (encBytes S ++ [.encFlush]))

/-- `Decode(bytes, bitlen, T)` (R102). -/
def decodeProgram (bytes : List Byte) (bitlen : Nat) (t : Option HuffmanNode) : List Instr :=
  loadTree t ++ (.decInit :: (decStream bytes bitlen ++ [.decEnd]))

/-- The tree memory holds the tree `t` with its root at index `i`, under some numbering of the nodes (R100). -/
def Table.holdsTree (tree : Table Node) (t : HuffmanNode) (i : Nat) : Prop :=
  match t with
  | .leaf sym _ => tree.read i = some (.leaf sym)
  | .internal _ l r =>
    ∃ li ri : Idx, tree.read i = some (.internal li ri) ∧ tree.holdsTree l li.toNat ∧ tree.holdsTree r ri.toNat

/-- Every weight of an Internal node is the sum of its children's weights (R95, R96). -/
def HuffmanNode.weightsAreSums : HuffmanNode → Prop
  | .leaf _ _ => True
  | .internal w l r => w = l.weight + r.weight ∧ l.weightsAreSums ∧ r.weightsAreSums

/-- The concatenation, in input order, of each byte's code word (spec/41_encoder.md R114, R116). -/
def codeStream (c : CodeTable) (S : List Byte) : Bits := S.flatMap fun sym => (codeOf c sym).getD []

end Sys2Proof.Machine
end

