-- ==== Sys2Proof/Machine/Listing.lean ====
section
/-! DEFINITION. The listing syntax of spec/30_encoding.md R80: one command per line, mnemonic in capitals, operands separated
by commas; decimal or `0x` numbers, a symbol in single quotes, a code word in double quotes, `;` starts a comment. The
assembler is host software; the block never sees a listing. -/

namespace Sys2Proof.Machine

/-- The tokens of a listing line (R80). -/
inductive Token where
  /-- A mnemonic or a number, as written. -/
  | bare (chars : List Char)
  /-- A character in single quotes. -/
  | symbol (c : Char)
  /-- A code word in double quotes, as written. -/
  | quoted (chars : List Char)
  | comma
  deriving DecidableEq, Repr

/-- Where the scanner stands: between tokens, inside a bare word, inside double quotes. -/
inductive ScanMode where
  | between
  | bare (seen : List Char)
  | quoted (seen : List Char)
  deriving DecidableEq, Repr

/-- The token a bare word ends in. -/
def ScanMode.flushBare (m : ScanMode) : List Token :=
  match m with
  | .between => []
  | .bare seen => [.bare seen.reverse]
  | .quoted _ => []

/-- The tokens of a line; a comment is dropped; none when a quote is left open (R80). -/
def scan (m : ScanMode) (line : List Char) : Option (List Token) :=
  match line with
  | [] =>
    match m with
    | .quoted _ => none
    | m => some m.flushBare
  | c :: rest =>
    match m with
    | .quoted seen => if c = '"' then (scan .between rest).map (.quoted seen.reverse :: ·) else scan (.quoted (c :: seen)) rest
    | m =>
      if c = ';' then some m.flushBare
      else if c = ' ' ∨ c = '\t' then (scan .between rest).map (m.flushBare ++ ·)
      else if c = ',' then (scan .between rest).map (m.flushBare ++ .comma :: ·)
      else if c = '"' then (scan (.quoted []) rest).map (m.flushBare ++ ·)
      else if c = '\'' then
        match rest with
        | d :: '\'' :: rest' => (scan .between rest').map (m.flushBare ++ .symbol d :: ·)
        | _ => none
      else
        match m with
        | .bare seen => scan (.bare (c :: seen)) rest
        | _ => scan (.bare [c]) rest

/-- Consecutive ASCII codes that stand for consecutive digit values. -/
structure DigitRun where
  firstCode : Nat
  count : Nat
  firstValue : Nat
  deriving DecidableEq, Repr

/-- The digits of a listing by ASCII code (R7, R80): 0x30 on for 0 to 9, 0x41 on and 0x61 on for 10 to 15 (assumption 14). -/
def digitRuns : List DigitRun := [⟨0x30, 10, 0⟩, ⟨0x41, 6, 10⟩, ⟨0x61, 6, 10⟩]

/-- The value of an ASCII code within one run. -/
def DigitRun.value? (run : DigitRun) (code : Nat) : Option Nat :=
  if code - run.firstCode < run.count ∧ run.firstCode ≤ code then some (run.firstValue + (code - run.firstCode)) else none

/-- The value of a digit in a base, none for any other character. -/
def digitValue? (base : Nat) (c : Char) : Option Nat :=
  (digitRuns.findSome? fun run => run.value? c.toNat).filter (· < base)

/-- The value of a non-empty digit string, most significant digit first. -/
def digits? (base : Nat) (chars : List Char) : Option Nat :=
  if chars = [] then none
  else chars.foldl (fun acc c => acc.bind fun n => (digitValue? base c).map fun d => n * base + d) (some 0)

/-- A number is decimal, or hexadecimal with `0x` (R80). -/
def number? (chars : List Char) : Option Nat :=
  match chars with
  | '0' :: 'x' :: hex => digits? 16 hex
  | _ => digits? 10 chars

/-- A code word: a string of `0` and `1`, first bit leftmost (R80). -/
def codeWordText? (chars : List Char) : Option Bits :=
  chars.mapM fun c => if c = '0' then some false else if c = '1' then some true else none

/-- An operand of a listing line: a number or symbol, or a code word. -/
inductive ListingOperand where
  | num (n : Nat)
  | code (w : Bits)
  deriving DecidableEq, Repr

/-- The operand a token spells; a symbol stands for its ASCII value (R80). -/
def Token.operand? : Token → Option ListingOperand
  | .bare chars => (number? chars).map .num
  | .symbol c => some (.num c.toNat)
  | .quoted chars => (codeWordText? chars).map .code
  | .comma => none

/-- Operands separated by commas (R80). -/
def operands? (tokens : List Token) : Option (List ListingOperand) :=
  match tokens with
  | [] => some []
  | [t] => t.operand?.map ([·])
  | t :: .comma :: u :: rest => t.operand?.bind fun o => (operands? (u :: rest)).map (o :: ·)
  | _ => none

/-- An operand that travels in one byte. -/
def ListingOperand.byte? : ListingOperand → Option Byte
  | .num n => if n < 256 then some (BitVec.ofNat 8 n) else none
  | .code _ => none

/-- An operand that travels in two bytes. -/
def ListingOperand.half? : ListingOperand → Option (BitVec 16)
  | .num n => if n < 65536 then some (BitVec.ofNat 16 n) else none
  | .code _ => none

/-- The command a mnemonic and its operands spell, operands in the order of R63; a code word longer than a `CT_SET` can carry
is not spelled by any command. -/
def command? (mnemonic : List Char) (ops : List ListingOperand) : Option Instr :=
  match ops with
  | [] =>
    if mnemonic = ['N', 'O', 'P'] then some .nop
    else if mnemonic = ['R', 'E', 'S', 'E', 'T'] then some .reset
    else if mnemonic = ['E', 'N', 'C', '_', 'I', 'N', 'I', 'T'] then some .encInit
    else if mnemonic = ['C', 'T', '_', 'C', 'L', 'E', 'A', 'R'] then some .ctClear
    else if mnemonic = ['E', 'N', 'C', '_', 'F', 'L', 'U', 'S', 'H'] then some .encFlush
    else if mnemonic = ['D', 'E', 'C', '_', 'I', 'N', 'I', 'T'] then some .decInit
    else if mnemonic = ['T', 'R', 'E', 'E', '_', 'C', 'L', 'E', 'A', 'R'] then some .treeClear
    else if mnemonic = ['D', 'E', 'C', '_', 'E', 'N', 'D'] then some .decEnd
    else none
  | [a] =>
    if mnemonic = ['R', 'D', 'R', 'E', 'G'] then a.byte?.map .rdreg
    else if mnemonic = ['E', 'N', 'C', '_', 'S', 'Y', 'M'] then a.byte?.map .encSym
    else if mnemonic = ['T', 'R', 'E', 'E', '_', 'R', 'O', 'O', 'T'] then a.half?.map .treeRoot
    else if mnemonic = ['D', 'E', 'C', '_', 'B', 'I', 'T'] then a.byte?.map .decBit
    else none
  | [a, b] =>
    if mnemonic = ['C', 'T', '_', 'S', 'E', 'T'] then
      match b with
      | .code w => if w.length ≤ Config.maxCodeLength then a.byte?.map fun sym => Instr.ctSetOf sym w else none
      | .num _ => none
    else if mnemonic = ['T', 'R', 'E', 'E', '_', 'L', 'E', 'A', 'F'] then
      a.half?.bind fun idx => b.byte?.map fun sym => .treeLeaf idx sym
    else if mnemonic = ['D', 'E', 'C', '_', 'B', 'Y', 'T', 'E'] then
      a.byte?.bind fun v => b.byte?.map fun n => .decByte v n
    else none
  | [a, b, c] =>
    if mnemonic = ['T', 'R', 'E', 'E', '_', 'I', 'N', 'T'] then
      a.half?.bind fun idx => b.half?.bind fun left => c.half?.map fun right => .treeInt idx left right
    else none
  | _ => none

/-- One listing line assembled: no bytes for an empty or comment line, the command's bytes otherwise, none for a line that
spells no command (R80). -/
def assembleLine (line : List Char) : Option (List Byte) :=
  match scan .between line with
  | none => none
  | some [] => some []
  | some (.bare mnemonic :: rest) => (operands? rest).bind fun ops => (command? mnemonic ops).map encode
  | some _ => none

end Sys2Proof.Machine
end

