-- ==== Sys2Proof/Safety.lean ====
section
/-! DEFINITION. What claims about runs are stated in: a clean state (no command refused, no engine in `ERROR`), and the
invariant of spec/10_state.md R39 with the canonical form of the two table memories. -/

namespace Sys2Proof.Machine

/-- No command of the run was refused (R14, R178) and neither engine holds an error (R17, R28). -/
def State.clean (s : State) : Prop := s.cmderr = false ∧ s.enc.st ≠ .error ∧ s.dec.st ≠ .error

/-- R39 (e): a valid `CT` entry has `1 <= len <= 255`. -/
def CodeEntry.inv (e : CodeEntry) : Prop := 1 ≤ e.len ∧ e.len ≤ 255

/-- R39 (f): an `INTERNAL` entry names children 0 to 510. -/
def Node.inv : Node → Prop
  | .leaf _ => True
  | .internal left right => left.toNat ≤ 510 ∧ right.toNat ≤ 510

/-- R39 (a) to (e) for the encoder: `CT` canonical; no code and no information outside `ERROR`; the low `8 - FILL` bits of
`ACC` are 0; `FILL`, `BITLEN` and the number of bytes agree. In `ERROR` they keep the values of the open stream. -/
structure Enc.Inv (e : Enc) : Prop where
  ct_wf : e.ct.wf Config.numSymbols
  entries : ∀ p ∈ e.ct, p.2.inv
  no_error : e.st ≠ .error → e.ecode = 0 ∧ e.einfo = 0
  acc_low : ∀ j, j < 8 - e.fill.toNat → e.acc.getLsbD j = false
  counts : e.st ≠ .done → e.fill.toNat = e.bitlen.toNat % 8 ∧ e.out.length = e.bitlen.toNat / 8
  closed : e.st = .done → e.fill = 0 ∧ e.acc = 0 ∧ e.out.length = ceilDiv8 e.bitlen.toNat

/-- R39 (a), (b), (f), (g), (h) and R27 for the decoder: `TREE` canonical; indices at most 510; `DONE` is never mid-path;
each symbol cost at least one bit. -/
structure Dec.Inv (d : Dec) : Prop where
  tree_wf : d.tree.wf Config.numNodes
  entries : ∀ p ∈ d.tree, p.2.inv
  root_idx : d.root.idx.toNat ≤ 510
  root_absent : d.root.present = false → d.root.idx = 0
  node_idx : d.node.toNat ≤ 510
  no_error : d.st ≠ .error → d.ecode = 0 ∧ d.einfo = 0
  closed : d.st = .done → d.mid = false
  counts : d.out.length ≤ d.bitcnt.toNat

/-- The invariant of R39. -/
structure State.Inv (s : State) : Prop where
  enc : s.enc.Inv
  dec : s.dec.Inv

/-- The codes the block produces (R170): 0 and 2 to 7; `AllocationFailure` (1) and 8 to 255 never (R174). -/
def producedCodes : List Byte := [0, 2, 3, 4, 5, 6, 7]

/-- The latched codes and every response so far are codes the block produces; only `IllegalCommand` is never latched
(R170, R178). -/
structure State.CodesInv (s : State) : Prop where
  enc : s.enc.ecode ∈ producedCodes ∧ s.enc.ecode ≠ 5
  dec : s.dec.ecode ∈ producedCodes ∧ s.dec.ecode ≠ 5
  responses : ∀ r ∈ s.responses, r.code ∈ producedCodes

end Sys2Proof.Machine
end

