-- ==== Sys2Proof/Certificates/Slice0/Obligations.lean ====
section
/-! DEFINITION. What is to be proved of the HBSC model: the numbered rules of spec/ that say what a command, the encoding, an
error, reset or the whole block does. Each docstring names the rule it formalises. -/

section
open Sys2Proof Sys2Proof.Machine

/-! ### System commands -/

/-- spec/43_system.md R160: `NOP` answers `ok(0)` in every state and changes nothing else. -/
def Obligations.NopAnswersOkAndWritesNothing : Prop :=
  encode .nop = [0x00] ∧
  ∀ s : State, exec .nop s = .next { s with responses := s.responses ++ [⟨0, 0⟩] }

/-- spec/43_system.md R161: `RESET` puts the block into the reset state, whatever the state was, and answers `ok(0)`; no table
entry survives; the bytes not yet consumed are not its business. No other command clears `CMDERR` or writes both engines. -/
def Obligations.ResetCommandRestoresEveryResetValue : Prop :=
  encode .reset = [0x01] ∧
  ∀ s : State, ∃ t, exec .reset s = .next t ∧
    t.cmderr = false ∧
    (∀ k, t.enc.ct.read k = none) ∧ t.enc.st = .streamOpen ∧ t.enc.ecode = 0 ∧ t.enc.einfo = 0 ∧ t.enc.acc = 0 ∧
    t.enc.fill = 0 ∧ t.enc.bitlen = 0 ∧ t.enc.out = [] ∧
    (∀ k, t.dec.tree.read k = none) ∧ t.dec.root = ⟨false, 0⟩ ∧ t.dec.node = 0 ∧ t.dec.mid = false ∧ t.dec.st = .run ∧
    t.dec.ecode = 0 ∧ t.dec.einfo = 0 ∧ t.dec.bitcnt = 0 ∧ t.dec.out = [] ∧
    t.responses = s.responses ++ [⟨0, 0⟩] ∧ t.cmdIn = s.cmdIn ∧ t.resetIn = s.resetIn ∧
    ∀ (i : Instr) (u : State), i ≠ .reset → exec i s = .next u →
      (s.cmderr = true → u.cmderr = true) ∧ (u.enc = s.enc ∨ u.dec = s.dec)

/-- spec/43_system.md R162 with the register map of spec/10_state.md R36, bit field by bit field, every bit not listed 0:
`RDREG` of a defined register answers `ok(v)` and writes nothing; of any other number it is refused. -/
def Obligations.RegisterReadReturnsTheMappedFields : Prop :=
  ∀ (r : Byte) (s : State),
    encode (.rdreg r) = [0x02, r] ∧
    (r ∈ definedRegisters → ∃ v : Word,
      exec (.rdreg r) s = .next { s with responses := s.responses ++ [⟨0, v⟩] } ∧
      (r = 0x00 → v.extractLsb' 0 1 = BitVec.ofBool s.cmderr ∧ v.extractLsb' 1 63 = 0) ∧
      (r = 0x10 → v.extractLsb' 0 2 = s.enc.st.code ∧ v.extractLsb' 2 6 = 0 ∧ v.extractLsb' 8 8 = s.enc.ecode ∧
        v.extractLsb' 16 48 = 0) ∧
      (r = 0x11 → v = s.enc.einfo) ∧
      (r = 0x12 → v = s.enc.bitlen) ∧
      (r = 0x13 → v.extractLsb' 0 8 = s.enc.acc ∧ v.extractLsb' 8 3 = s.enc.fill ∧ v.extractLsb' 11 53 = 0) ∧
      (r = 0x14 → s.enc.out.length < 2 ^ 64 → v.toNat = s.enc.out.length) ∧
      (r = 0x20 → v.extractLsb' 0 2 = s.dec.st.code ∧ v.extractLsb' 2 1 = BitVec.ofBool s.dec.mid ∧
        v.extractLsb' 3 5 = 0 ∧ v.extractLsb' 8 8 = s.dec.ecode ∧ v.extractLsb' 16 48 = 0) ∧
      (r = 0x21 → v = s.dec.einfo) ∧
      (r = 0x22 → v = s.dec.bitcnt) ∧
      (r = 0x23 → v.extractLsb' 0 9 = s.dec.node ∧ v.extractLsb' 9 55 = 0) ∧
      (r = 0x24 → v.extractLsb' 0 9 = s.dec.root.idx ∧ v.extractLsb' 9 6 = 0 ∧
        v.extractLsb' 15 1 = BitVec.ofBool s.dec.root.present ∧ v.extractLsb' 16 48 = 0) ∧
      (r = 0x25 → s.dec.out.length < 2 ^ 64 → v.toNat = s.dec.out.length)) ∧
    (r ∉ definedRegisters →
      exec (.rdreg r) s = .next { s with cmderr := true, responses := s.responses ++ [⟨5, 0x02⟩] })

/-- spec/10_state.md R36, column "reset": every defined register reads 0 right after reset. -/
def Obligations.EveryRegisterReadsZeroAfterReset : Prop :=
  ∀ r ∈ definedRegisters,
    exec (.rdreg r) State.reset = .next { State.reset with responses := [⟨0, 0⟩] }

/-! ### Encoder commands -/

/-- spec/41_encoder.md R110: `ENC_INIT` sets the seven stream registers, keeps `CT`, `CMDERR` and the decoder, and succeeds in
every state. -/
def Obligations.EncInitStartsAnEmptyStream : Prop :=
  encode .encInit = [0x10] ∧
  ∀ s : State, exec .encInit s = .next { s with
    enc := { ct := s.enc.ct, st := .streamOpen, ecode := 0, einfo := 0, acc := 0, fill := 0, bitlen := 0, out := [] }
    responses := s.responses ++ [⟨0, 0⟩] }

/-- spec/41_encoder.md R111: `CT_CLEAR` leaves no symbol with a code word and writes nothing else. -/
def Obligations.CtClearInvalidatesEveryEntry : Prop :=
  encode .ctClear = [0x11] ∧
  ∀ s : State, ∃ t, exec .ctClear s = .next t ∧
    (∀ k, t.enc.ct.read k = none) ∧
    t = { s with enc := { s.enc with ct := t.enc.ct }, responses := s.responses ++ [⟨0, 0⟩] }

/-- spec/41_encoder.md R112: `CT_SET` stores the code word `code[i] = codebytes[floor(i/8)][7 - (i mod 8)]` for its symbol and
leaves every other entry; a zero length or a set padding bit is refused. `codebytes` has the `ceil(len/8)` bytes that every
command on the wire carries. -/
def Obligations.CtSetStoresTheCodeWord : Prop :=
  ∀ (sym len : Byte) (codebytes : List Byte) (s : State), codebytes.length = ceilDiv8 len.toNat →
    encode (.ctSet sym len codebytes) = 0x12 :: sym :: len :: codebytes ∧
    (len ≠ 0 → (∀ j, j < 8 * ceilDiv8 len.toNat - len.toNat → (codebytes.getLastD 0).getLsbD j = false) →
      ∃ (t : State) (code : Bits), exec (.ctSet sym len codebytes) s = .next t ∧
        t.enc.ct.read sym.toNat = some ⟨code⟩ ∧ code.length = len.toNat ∧
        (∀ i, i < len.toNat → code[i]? = some ((codebytes.getD (i / 8) 0).getLsbD (7 - i % 8))) ∧
        (∀ k, k ≠ sym.toNat → t.enc.ct.read k = s.enc.ct.read k) ∧
        t = { s with enc := { s.enc with ct := t.enc.ct }, responses := s.responses ++ [⟨0, 0⟩] }) ∧
    (len = 0 ∨ (∃ j, j < 8 * ceilDiv8 len.toNat - len.toNat ∧ (codebytes.getLastD 0).getLsbD j = true) →
      exec (.ctSet sym len codebytes) s =
        .next { s with cmderr := true, responses := s.responses ++ [⟨5, 0x12⟩] })

/-- spec/41_encoder.md R113: `PushBit(b)` writes the bit at `ACC[7 - FILL]`, counts it, and emits the byte in the step in which
its eighth bit arrives. -/
def Obligations.PushBitFillsTheByteFromItsTop : Prop :=
  ∀ (b : Bool) (e : Enc),
    (e.fill ≠ 7 → ∃ acc : Byte,
      e.pushBit b = { e with acc := acc, bitlen := e.bitlen + 1, fill := e.fill + 1 } ∧
      ∀ j, j < 8 → acc.getLsbD j = if j = 7 - e.fill.toNat then b else e.acc.getLsbD j) ∧
    (e.fill = 7 → ∃ byte : Byte,
      e.pushBit b = { e with out := e.out ++ [byte], acc := 0, fill := 0, bitlen := e.bitlen + 1 } ∧
      ∀ j, j < 8 → byte.getLsbD j = if j = 0 then b else e.acc.getLsbD j)

/-- spec/41_encoder.md R114: `ENC_SYM` in each of its cases, in the order tested: latched error, closed stream, symbol without
a code word, counter limit, and success, which pushes the code word bit by bit. -/
def Obligations.EncSymPushesTheCodeWordOfItsSymbol : Prop :=
  ∀ (sym : Byte) (s : State),
    encode (.encSym sym) = [0x13, sym] ∧
    (s.enc.st = .error →
      exec (.encSym sym) s = .next { s with responses := s.responses ++ [⟨s.enc.ecode, s.enc.einfo⟩] }) ∧
    (s.enc.st = .done →
      exec (.encSym sym) s = .next { s with cmderr := true, responses := s.responses ++ [⟨5, 0x13⟩] }) ∧
    (s.enc.st = .streamOpen → s.enc.ct.read sym.toNat = none →
      exec (.encSym sym) s = .next { s with
        enc := { s.enc with st := .error, ecode := 2, einfo := sym.setWidth 64 }
        responses := s.responses ++ [⟨2, sym.setWidth 64⟩] }) ∧
    (∀ e, s.enc.st = .streamOpen → s.enc.ct.read sym.toNat = some e →
      s.enc.bitlen.toNat + e.code.length > 2 ^ 64 - 1 →
      exec (.encSym sym) s = .next { s with
        enc := { s.enc with st := .error, ecode := 7, einfo := sym.setWidth 64 }
        responses := s.responses ++ [⟨7, sym.setWidth 64⟩] }) ∧
    (∀ e, s.enc.st = .streamOpen → s.enc.ct.read sym.toNat = some e →
      s.enc.bitlen.toNat + e.code.length ≤ 2 ^ 64 - 1 →
      ∃ t, exec (.encSym sym) s = .next t ∧
        t.enc = e.code.foldl (fun x b => x.pushBit b) s.enc ∧
        t.enc.bitlen.toNat = s.enc.bitlen.toNat + e.code.length ∧
        t.enc.ct = s.enc.ct ∧ t.enc.st = .streamOpen ∧ t.enc.ecode = s.enc.ecode ∧ t.enc.einfo = s.enc.einfo ∧
        t = { s with enc := t.enc, responses := s.responses ++ [⟨0, t.enc.bitlen⟩] })

/-- spec/20_memory.md R41, spec/10_state.md R20, R23: a successful `ENC_SYM` appends the code word, first bit first, to the
stream bits held in `ENC_OUT` and `ACC`, and keeps every byte already emitted. -/
def Obligations.EncSymAppendsItsCodeWordToTheStream : Prop :=
  ∀ (sym : Byte) (s : State) (e : CodeEntry),
    s.enc.st = .streamOpen → s.enc.ct.read sym.toNat = some e → s.enc.bitlen.toNat + e.code.length ≤ 2 ^ 64 - 1 →
    ∃ t, exec (.encSym sym) s = .next t ∧
      t.enc.streamBits = s.enc.streamBits ++ e.code ∧ s.enc.out <+: t.enc.out ∧
      t.enc.fill.toNat = (s.enc.fill.toNat + e.code.length) % 8

/-- spec/41_encoder.md R115: `ENC_FLUSH` in each state of the encoder. -/
def Obligations.EncFlushEmitsThePartialByteAndCloses : Prop :=
  encode .encFlush = [0x14] ∧
  ∀ s : State,
    (s.enc.st = .error →
      exec .encFlush s = .next { s with responses := s.responses ++ [⟨s.enc.ecode, s.enc.einfo⟩] }) ∧
    (s.enc.st = .done →
      exec .encFlush s = .next { s with responses := s.responses ++ [⟨0, s.enc.bitlen⟩] }) ∧
    (s.enc.st = .streamOpen →
      exec .encFlush s = .next { s with
        enc := { s.enc with
          out := s.enc.out ++ (if 0 < s.enc.fill.toNat then [s.enc.acc] else []), acc := 0, fill := 0, st := .done }
        responses := s.responses ++ [⟨0, s.enc.bitlen⟩] })

/-- spec/20_memory.md R42, R43: in every state that satisfies the invariant of R39, flushing an open stream leaves in
`ENC_OUT` exactly `ceil(BITLEN/8)` bytes: stream bit `k` in byte `floor(k/8)` at position `7 - (k mod 8)`, and zeros after the
last stream bit. -/
def Obligations.FlushedStreamIsPackedFromTheTopAndPaddedWithZeros : Prop :=
  ∀ s : State, s.enc.Inv → s.enc.st = .streamOpen →
    ∃ t, exec .encFlush s = .next t ∧
      s.enc.streamBits.length = s.enc.bitlen.toNat ∧ t.enc.bitlen = s.enc.bitlen ∧
      t.enc.out.length = ceilDiv8 s.enc.bitlen.toNat ∧
      ∀ k, k < 8 * t.enc.out.length →
        (t.enc.out.getD (k / 8) 0).getLsbD (7 - k % 8) = s.enc.streamBits.getD k false

/-! ### Decoder commands -/

/-- spec/42_decoder.md R130: `DEC_INIT` sets the seven decode registers, `NODE` to `ROOT.idx`, keeps `TREE`, `ROOT`, `CMDERR`
and the encoder, and succeeds in every state. -/
def Obligations.DecInitStartsAtTheRoot : Prop :=
  encode .decInit = [0x20] ∧
  ∀ s : State, exec .decInit s = .next { s with
    dec := { tree := s.dec.tree, root := s.dec.root, node := s.dec.root.idx, mid := false, st := .run, ecode := 0,
             einfo := 0, bitcnt := 0, out := [] }
    responses := s.responses ++ [⟨0, 0⟩] }

/-- spec/42_decoder.md R131: `TREE_CLEAR` leaves every entry `INVALID` and the root absent, and writes nothing else. -/
def Obligations.TreeClearMakesTheTreeEmpty : Prop :=
  encode .treeClear = [0x21] ∧
  ∀ s : State, ∃ t, exec .treeClear s = .next t ∧
    (∀ k, t.dec.tree.read k = none) ∧ t.dec.root = ⟨false, 0⟩ ∧
    t = { s with dec := { s.dec with tree := t.dec.tree, root := t.dec.root }, responses := s.responses ++ [⟨0, 0⟩] }

/-- spec/42_decoder.md R132: `TREE_LEAF` replaces the entry at `idx` and no other; an index above 510 is refused. -/
def Obligations.TreeLeafWritesOneLeaf : Prop :=
  ∀ (idx : BitVec 16) (sym : Byte) (s : State),
    encode (.treeLeaf idx sym) = [0x22, idx.extractLsb' 8 8, idx.extractLsb' 0 8, sym] ∧
    (idx.toNat ≤ 510 → ∃ t, exec (.treeLeaf idx sym) s = .next t ∧
      t.dec.tree.read idx.toNat = some (.leaf sym) ∧
      (∀ k, k ≠ idx.toNat → t.dec.tree.read k = s.dec.tree.read k) ∧
      t = { s with dec := { s.dec with tree := t.dec.tree }, responses := s.responses ++ [⟨0, 0⟩] }) ∧
    (510 < idx.toNat →
      exec (.treeLeaf idx sym) s = .next { s with cmderr := true, responses := s.responses ++ [⟨5, 0x22⟩] })

/-- spec/42_decoder.md R133: `TREE_INT` replaces the entry at `idx` and no other, children as given; an index above 510 among
the three is refused. -/
def Obligations.TreeIntWritesOneInternalNode : Prop :=
  ∀ (idx left right : BitVec 16) (s : State),
    encode (.treeInt idx left right) = [0x23, idx.extractLsb' 8 8, idx.extractLsb' 0 8, left.extractLsb' 8 8,
      left.extractLsb' 0 8, right.extractLsb' 8 8, right.extractLsb' 0 8] ∧
    (idx.toNat ≤ 510 → left.toNat ≤ 510 → right.toNat ≤ 510 → ∃ (t : State) (l r : Idx),
      exec (.treeInt idx left right) s = .next t ∧
      l.toNat = left.toNat ∧ r.toNat = right.toNat ∧ t.dec.tree.read idx.toNat = some (.internal l r) ∧
      (∀ k, k ≠ idx.toNat → t.dec.tree.read k = s.dec.tree.read k) ∧
      t = { s with dec := { s.dec with tree := t.dec.tree }, responses := s.responses ++ [⟨0, 0⟩] }) ∧
    (510 < idx.toNat ∨ 510 < left.toNat ∨ 510 < right.toNat →
      exec (.treeInt idx left right) s = .next { s with cmderr := true, responses := s.responses ++ [⟨5, 0x23⟩] })

/-- spec/42_decoder.md R134: `TREE_ROOT` names the root and touches neither `NODE` nor `MID`; an index above 510 is refused. -/
def Obligations.TreeRootNamesTheRoot : Prop :=
  ∀ (idx : BitVec 16) (s : State),
    encode (.treeRoot idx) = [0x24, idx.extractLsb' 8 8, idx.extractLsb' 0 8] ∧
    (idx.toNat ≤ 510 → ∃ t, exec (.treeRoot idx) s = .next t ∧
      t.dec.root.present = true ∧ t.dec.root.idx.toNat = idx.toNat ∧
      t = { s with dec := { s.dec with root := t.dec.root }, responses := s.responses ++ [⟨0, 0⟩] }) ∧
    (510 < idx.toNat →
      exec (.treeRoot idx) s = .next { s with cmderr := true, responses := s.responses ++ [⟨5, 0x24⟩] })

/-- spec/42_decoder.md R136: `DecStep(b)` in each of its cases, in the order tested. The entry a transition starts from is
`NODE` when mid-path and `ROOT.idx` otherwise; `0` selects the left child, `1` the right. -/
def Obligations.DecStepTakesOneTransition : Prop :=
  ∀ (b : Bool) (d : Dec) (cur nxt : Idx), cur = (if d.mid then d.node else d.root.idx) →
    (d.bitcnt.toNat = 2 ^ 64 - 1 → d.decStep b = .error ⟨.lengthOverflow, d.bitcnt⟩) ∧
    (d.bitcnt.toNat ≠ 2 ^ 64 - 1 →
      (d.root.present = false → d.decStep b = .error ⟨.emptyTreeNonEmptyStream, d.bitcnt⟩) ∧
      (d.root.present = true →
        (d.tree.read cur.toNat = none → d.decStep b = .error ⟨.invalidNode, cur.setWidth 64⟩) ∧
        (∀ sym, d.tree.read cur.toNat = some (.leaf sym) →
          (d.mid = true → d.decStep b = .error ⟨.invalidNode, cur.setWidth 64⟩) ∧
          (d.mid = false → b = true → d.decStep b = .error ⟨.malformedStream, d.bitcnt⟩) ∧
          (d.mid = false → b = false → d.decStep b = .ok { d with
            out := d.out ++ [sym], node := d.root.idx, mid := false, bitcnt := d.bitcnt + 1 })) ∧
        (∀ left right, d.tree.read cur.toNat = some (.internal left right) → nxt = (if b then right else left) →
          (d.tree.read nxt.toNat = none → d.decStep b = .error ⟨.invalidNode, nxt.setWidth 64⟩) ∧
          (∀ sym, d.tree.read nxt.toNat = some (.leaf sym) → d.decStep b = .ok { d with
            out := d.out ++ [sym], node := d.root.idx, mid := false, bitcnt := d.bitcnt + 1 }) ∧
          (∀ l r, d.tree.read nxt.toNat = some (.internal l r) → d.decStep b = .ok { d with
            node := nxt, mid := true, bitcnt := d.bitcnt + 1 }))))

/-- spec/42_decoder.md R137 with the error entry of spec/60_exceptions.md R177: `DEC_BIT` in each of its cases. -/
def Obligations.DecBitConsumesOneBit : Prop :=
  ∀ (a : Byte) (s : State),
    encode (.decBit a) = [0x25, a] ∧
    (a.extractLsb' 1 7 ≠ 0 →
      exec (.decBit a) s = .next { s with cmderr := true, responses := s.responses ++ [⟨5, 0x25⟩] }) ∧
    (a.extractLsb' 1 7 = 0 →
      (s.dec.st = .error →
        exec (.decBit a) s = .next { s with responses := s.responses ++ [⟨s.dec.ecode, s.dec.einfo⟩] }) ∧
      (s.dec.st = .done →
        exec (.decBit a) s = .next { s with cmderr := true, responses := s.responses ++ [⟨5, 0x25⟩] }) ∧
      (s.dec.st = .run →
        (∀ d, s.dec.decStep (a.getLsbD 0) = .ok d →
          exec (.decBit a) s = .next { s with dec := d, responses := s.responses ++ [⟨0, 0⟩] }) ∧
        (∀ r, s.dec.decStep (a.getLsbD 0) = .error r →
          exec (.decBit a) s = .next { s with
            dec := { s.dec with st := .error, ecode := r.cause.code, einfo := r.info }
            responses := s.responses ++ [⟨r.cause.code, r.info⟩] })))

/-- spec/42_decoder.md R138, the pseudocode, in each of its cases: with `d 0`, `d 1`, ... the decoder states that `DecStep`
passes through on `v[7]`, `v[6]`, ..., the command ends after `n` of them, or at the first bit that raises, and keeps the
effect of the bits before it. -/
def Obligations.DecByteStepsThroughItsTopBits : Prop :=
  ∀ (v n : Byte) (s : State),
    encode (.decByte v n) = [0x26, v, n] ∧
    (n.toNat = 0 ∨ 8 < n.toNat →
      exec (.decByte v n) s = .next { s with cmderr := true, responses := s.responses ++ [⟨5, 0x26⟩] }) ∧
    (1 ≤ n.toNat → n.toNat ≤ 8 →
      (s.dec.st = .error →
        exec (.decByte v n) s = .next { s with responses := s.responses ++ [⟨s.dec.ecode, s.dec.einfo⟩] }) ∧
      (s.dec.st = .done →
        exec (.decByte v n) s = .next { s with cmderr := true, responses := s.responses ++ [⟨5, 0x26⟩] }) ∧
      (s.dec.st = .run → ∀ (d : Nat → Dec) (m : Nat), d 0 = s.dec → m ≤ n.toNat →
        (∀ k, k < m → (d k).decStep (v.getLsbD (7 - k)) = .ok (d (k + 1))) →
        (m = n.toNat →
          exec (.decByte v n) s = .next { s with dec := d m, responses := s.responses ++ [⟨0, 0⟩] }) ∧
        (∀ r, m < n.toNat → (d m).decStep (v.getLsbD (7 - m)) = .error r →
          exec (.decByte v n) s = .next { s with
            dec := { d m with st := .error, ecode := r.cause.code, einfo := r.info }
            responses := s.responses ++ [⟨r.cause.code, r.info⟩] })))

/-- spec/42_decoder.md R138: in state `RUN`, `DEC_BYTE v, n` has the effect on state of `DEC_BIT v[7]; ...; DEC_BIT v[8-n]`, and
answers with the first of their responses that is a failure, or `ok(0)`: an inference of the spec. -/
def Obligations.DecByteIsThatManyDecBits : Prop :=
  ∀ (v n : Byte) (s : State), 1 ≤ n.toNat → n.toNat ≤ 8 → s.dec.st = .run → ∃ (u : State) (rs : List Response),
    execAll ((List.range n.toNat).map fun k => .decBit (if v.getLsbD (7 - k) then 1 else 0)) s = .next u ∧
    u.responses = s.responses ++ rs ∧ rs.length = n.toNat ∧
    exec (.decByte v n) s = .next { u with
      responses := s.responses ++ [(rs.find? fun r => r.code != 0).getD ⟨0, 0⟩] }

/-- spec/42_decoder.md R138, corner cases; decision D18: the `8 - n` low bits of the byte are not examined. -/
def Obligations.DecByteIgnoresTheUnusedLowBits : Prop :=
  ∀ (v w n : Byte) (s : State),
    (∀ k, k < n.toNat → v.getLsbD (7 - k) = w.getLsbD (7 - k)) →
    exec (.decByte v n) s = exec (.decByte w n) s

/-- spec/42_decoder.md R139: `DEC_END` in each state of the decoder; in `RUN` it fails exactly when mid-path. The count it
answers is the number of symbols decoded, wherever that number has 64 bits; nothing is said of it elsewhere. -/
def Obligations.DecEndClosesOnlyBetweenSymbols : Prop :=
  encode .decEnd = [0x27] ∧
  ∀ s : State,
    (s.dec.st = .error →
      exec .decEnd s = .next { s with responses := s.responses ++ [⟨s.dec.ecode, s.dec.einfo⟩] }) ∧
    (s.dec.st = .done → ∃ count : Word,
      exec .decEnd s = .next { s with responses := s.responses ++ [⟨0, count⟩] } ∧
      (s.dec.out.length < 2 ^ 64 → count.toNat = s.dec.out.length)) ∧
    (s.dec.st = .run → s.dec.mid = true →
      exec .decEnd s = .next { s with
        dec := { s.dec with st := .error, ecode := 3, einfo := s.dec.bitcnt }
        responses := s.responses ++ [⟨3, s.dec.bitcnt⟩] }) ∧
    (s.dec.st = .run → s.dec.mid = false → ∃ count : Word,
      exec .decEnd s = .next { s with dec := { s.dec with st := .done }, responses := s.responses ++ [⟨0, count⟩] } ∧
      (s.dec.out.length < 2 ^ 64 → count.toNat = s.dec.out.length))

/-! ### Errors -/

/-- spec/30_encoding.md R74: the table of operand conditions; a command that breaks one is consumed at its full length and
refused in every state of the block, before the engine's state is looked at, and changes nothing but `CMDERR`. -/
def Obligations.IllegalOperandIsRefusedInEveryState : Prop :=
  (∀ r : Byte, (Instr.rdreg r).wellFormed = true ↔
    r ∈ [0x00, 0x10, 0x11, 0x12, 0x13, 0x14, 0x20, 0x21, 0x22, 0x23, 0x24, 0x25]) ∧
  (∀ (sym len : Byte) (codebytes : List Byte), codebytes.length = ceilDiv8 len.toNat →
    ((Instr.ctSet sym len codebytes).wellFormed = true ↔ 1 ≤ len.toNat ∧ len.toNat ≤ 255 ∧
      ∀ j, j < 8 * ceilDiv8 len.toNat - len.toNat → (codebytes.getLastD 0).getLsbD j = false)) ∧
  (∀ a : Byte, (Instr.decBit a).wellFormed = true ↔ a.extractLsb' 1 7 = 0) ∧
  (∀ v n : Byte, (Instr.decByte v n).wellFormed = true ↔ 1 ≤ n.toNat ∧ n.toNat ≤ 8) ∧
  (∀ (idx : BitVec 16) (sym : Byte), (Instr.treeLeaf idx sym).wellFormed = true ↔ idx.toNat ≤ 510) ∧
  (∀ idx left right : BitVec 16, (Instr.treeInt idx left right).wellFormed = true ↔
    idx.toNat ≤ 510 ∧ left.toNat ≤ 510 ∧ right.toNat ≤ 510) ∧
  (∀ idx : BitVec 16, (Instr.treeRoot idx).wellFormed = true ↔ idx.toNat ≤ 510) ∧
  (∀ sym : Byte, (Instr.encSym sym).wellFormed = true) ∧
  (∀ (i : Instr) (rest : List Byte), i.wellFormed = false →
    (∀ sym len codebytes, i = .ctSet sym len codebytes → codebytes.length = ceilDiv8 len.toNat) →
    decode (encode i ++ rest) = .illegal i.opcode (encode i).length) ∧
  (∀ (i : Instr) (s : State), i.wellFormed = false →
    (∀ sym len codebytes, i = .ctSet sym len codebytes → codebytes.length = ceilDiv8 len.toNat) →
    exec i s = .next { s with cmderr := true, responses := s.responses ++ [⟨5, i.opcode.setWidth 64⟩] })

/-- The model's choice, assumption 7 (DESIGN CHOICE; no rule of the spec): a `CT_SET` term whose code bytes are not the
`ceil(len/8)` bytes of the wire form (spec/30_encoding.md R61) is no command that any bytes decode to, and its meaning refuses
it as R178 says. -/
def Obligations.CtSetTermWithoutAWireFormIsRefused : Prop :=
  ∀ (sym len : Byte) (codebytes : List Byte), codebytes.length ≠ ceilDiv8 len.toNat →
    (∀ (bytes : List Byte) (n : Nat), fetch bytes ≠ .command (.ctSet sym len codebytes) n) ∧
    ∀ s : State, exec (.ctSet sym len codebytes) s =
      .next { s with cmderr := true, responses := s.responses ++ [⟨5, 0x12⟩] }

/-- spec/60_exceptions.md R178: whenever a command is answered with code 5, it changed nothing but `CMDERR`, which is 1, and
the information word is its opcode; `CMDERR` stays set until `RESET`. The premise is the model's invariant that code 5 is never
latched. -/
def Obligations.RefusedCommandChangesOnlyCmderr : Prop :=
  (∀ (i : Instr) (s t : State) (info : Word), s.CodesInv → exec i s = .next t → t.responses = s.responses ++ [⟨5, info⟩] →
    info = i.opcode.setWidth 64 ∧
    t = { s with cmderr := true, responses := s.responses ++ [⟨5, i.opcode.setWidth 64⟩] }) ∧
  (∀ (i : Instr) (s t : State), s.cmderr = true → i ≠ .reset → exec i s = .next t → t.cmderr = true)

/-- spec/10_state.md R14: `CMDERR` is set by a command that ends with `IllegalCommand` and by nothing else, cleared by `RESET`
alone among the commands, and no command but `RDREG` behaves differently for it. -/
def Obligations.CmderrRecordsRefusedCommandsOnly : Prop :=
  State.reset.cmderr = false ∧ ∀ (i : Instr) (s : State), s.CodesInv →
    ∃ (t : State) (r : Response), exec i s = .next t ∧ t.responses = s.responses ++ [r] ∧
      (i = .reset → t.cmderr = false) ∧
      (i ≠ .reset → (t.cmderr = true ↔ s.cmderr = true ∨ r.code = 5)) ∧
      ((∀ n, i ≠ .rdreg n) → ∀ c : Bool, ∃ c' : Bool,
        exec i { s with cmderr := c } = .next { t with cmderr := c' })

/-- spec/60_exceptions.md R181: while an engine is in `ERROR`, each of its stream commands with legal operands repeats the
latched error and changes no state; every command that is not a stream command succeeds in every state. -/
def Obligations.LatchedErrorIsRepeatedByEveryStreamCommand : Prop :=
  ∀ (i : Instr) (s : State), i.wellFormed = true →
    (s.enc.st = .error → (∃ sym, i = .encSym sym) ∨ i = .encFlush →
      exec i s = .next { s with responses := s.responses ++ [⟨s.enc.ecode, s.enc.einfo⟩] }) ∧
    (s.dec.st = .error → (∃ a, i = .decBit a) ∨ (∃ v n, i = .decByte v n) ∨ i = .decEnd →
      exec i s = .next { s with responses := s.responses ++ [⟨s.dec.ecode, s.dec.einfo⟩] }) ∧
    ((∀ sym, i ≠ .encSym sym) → i ≠ .encFlush → (∀ a, i ≠ .decBit a) → (∀ v n, i ≠ .decByte v n) → i ≠ .decEnd →
      ∃ (t : State) (info : Word), exec i s = .next t ∧ t.responses = s.responses ++ [⟨0, info⟩])

/-- spec/60_exceptions.md R183 (and R110, R130 for `DONE`): a step takes an engine out of `ERROR` or `DONE` back to `OPEN` or
`RUN` only by the engine's init command, `RESET`, or hardware reset; `ERROR` and `DONE` never change into each other. -/
def Obligations.OnlyInitOrResetReopensAnEngine : Prop :=
  ∀ s t : State, step s = .next t →
    (s.enc.st ≠ .streamOpen → t.enc.st ≠ s.enc.st →
      t.enc.st = .streamOpen ∧ t.enc.ecode = 0 ∧ t.enc.einfo = 0 ∧ t.enc.bitlen = 0 ∧ t.enc.out = [] ∧
      (s.resetIn = true ∨ ∃ n, decode s.cmdIn = .command .encInit n ∨ decode s.cmdIn = .command .reset n)) ∧
    (s.dec.st ≠ .run → t.dec.st ≠ s.dec.st →
      t.dec.st = .run ∧ t.dec.ecode = 0 ∧ t.dec.einfo = 0 ∧ t.dec.bitcnt = 0 ∧ t.dec.out = [] ∧
      (s.resetIn = true ∨ ∃ n, decode s.cmdIn = .command .decInit n ∨ decode s.cmdIn = .command .reset n))

/-- spec/60_exceptions.md R170, R174: the codes latched and answered are 0 and 2 to 7; `AllocationFailure` and the codes from 8
on are never produced: an invariant of every step. -/
def Obligations.EveryStepProducesOnlyDefinedCodes : Prop :=
  ∀ s t : State, s.CodesInv → step s = .next t → t.CodesInv

/-! ### The engines -/

/-- spec/10_state.md R10: an encoder command leaves the decoder as it was and what it does to the encoder, and its response,
depend on the encoder alone; a decoder command the other way round; `NOP` and `RDREG` write neither engine. -/
def Obligations.EnginesShareNoState : Prop :=
  (∀ (i : Instr) (s s' : State), i.isEncoder = true → s.enc = s'.enc →
    ∃ (t t' : State) (r : Response), exec i s = .next t ∧ exec i s' = .next t' ∧
      t.enc = t'.enc ∧ t.dec = s.dec ∧ t'.dec = s'.dec ∧
      t.responses = s.responses ++ [r] ∧ t'.responses = s'.responses ++ [r]) ∧
  (∀ (i : Instr) (s s' : State), i.isDecoder = true → s.dec = s'.dec →
    ∃ (t t' : State) (r : Response), exec i s = .next t ∧ exec i s' = .next t' ∧
      t.dec = t'.dec ∧ t.enc = s.enc ∧ t'.enc = s'.enc ∧
      t.responses = s.responses ++ [r] ∧ t'.responses = s'.responses ++ [r]) ∧
  (∀ (i : Instr) (s t : State), i.isEncoder = false → i.isDecoder = false → i ≠ .reset → exec i s = .next t →
    t.enc = s.enc ∧ t.dec = s.dec)

/-- spec/20_memory.md R51: an encoder command and a decoder command that are adjacent can be swapped: the final states differ
only in the order of the two responses, each of which is the same in both orders. -/
def Obligations.EncoderAndDecoderCommandsCommute : Prop :=
  ∀ (i j : Instr) (s : State), i.isEncoder = true → j.isDecoder = true →
    ∃ (t : State) (ri rj : Response),
      execAll [i, j] s = .next { t with responses := s.responses ++ [ri, rj] } ∧
      execAll [j, i] s = .next { t with responses := s.responses ++ [rj, ri] }

/-- spec/20_memory.md R50, spec/30_encoding.md R78: every command is executed to completion in every state and answered by
exactly one response; it consumes nothing beyond its own bytes and leaves the reset input alone. -/
def Obligations.EveryCommandIsAnsweredOnce : Prop :=
  ∀ (i : Instr) (s : State), ∃ (t : State) (r : Response),
    exec i s = .next t ∧ t.responses = s.responses ++ [r] ∧ t.cmdIn = s.cmdIn ∧ t.resetIn = s.resetIn

/-! ### The step -/

/-- spec/20_memory.md R47, R50: when the bytes at the head of the command stream decode to a command, one step is that command's
effect on the state with those bytes consumed. -/
def Obligations.StepRunsTheDecodedCommand : Prop :=
  ∀ (s : State) (i : Instr) (n : Nat), s.resetIn = false → decode s.cmdIn = .command i n →
    step s = exec i { s with cmdIn := s.cmdIn.drop n }

/-- spec/30_encoding.md R73, R74, spec/60_exceptions.md R178: an illegal command is consumed at its length, answered
`fail(5, opcode)`, sets `CMDERR` and changes nothing else. -/
def Obligations.StepRefusesTheIllegalCommand : Prop :=
  ∀ (s : State) (op : Byte) (n : Nat), s.resetIn = false → decode s.cmdIn = .illegal op n →
    step s = .next { s with
      cmderr := true, cmdIn := s.cmdIn.drop n, responses := s.responses ++ [⟨5, op.setWidth 64⟩] } ∧
    s.cmdIn.head? = some op ∧ 1 ≤ n ∧ n ≤ s.cmdIn.length

/-- spec/30_encoding.md R75: an incomplete command is not executed, produces no response and changes no state. That the waiting
block's step answers the same state is the model's choice (assumption 4). -/
def Obligations.StepWaitsForTheMissingBytes : Prop :=
  ∀ s : State, s.resetIn = false → decode s.cmdIn = .incomplete → step s = .next s

/-- spec/70_reset_and_hazards.md R200: hardware reset gives the state of R38, produces no response and discards a partly
received command, wherever on the command stream it starts: what stays is whole commands, and what is discarded begins with an
incomplete one. That reset is a step of its own, served before the next command, and that whole commands stay on the port, are
the model's choices (assumption 3). -/
def Obligations.HardwareResetRestoresTheResetState : Prop :=
  ∀ s : State, s.resetIn = true → ∃ t, step s = .next t ∧
    t.cmderr = State.reset.cmderr ∧ t.enc = State.reset.enc ∧ t.dec = State.reset.dec ∧ t.responses = s.responses ∧
    t.resetIn = false ∧ (decode s.cmdIn = .incomplete → t.cmdIn = []) ∧
    ∃ (parts : List (List Byte)) (partly : List Byte), s.cmdIn = parts.flatten ++ partly ∧ t.cmdIn = parts.flatten ∧
      decode partly = .incomplete ∧
      ∀ p ∈ parts, (∃ i, decode p = .command i p.length) ∨ ∃ op, decode p = .illegal op p.length

/-- spec/20_memory.md R46, R50, spec/30_encoding.md R60: presenting the bytes of a command sequence end to end and letting the
block run as many steps executes exactly that sequence, in order, and consumes exactly those bytes. -/
def Obligations.ByteStreamRunsTheCommandSequence : Prop :=
  ∀ (cmds : List Instr) (rest : List Byte) (s : State), (∀ i ∈ cmds, i.wellFormed = true) → s.resetIn = false →
    Host.Core.run core cmds.length { s with cmdIn := assemble cmds ++ rest } = execAll cmds { s with cmdIn := rest }

/-! ### The encoding -/

/-- spec/30_encoding.md R60 to R63: decoding the bytes of a well-formed command, whatever follows them, gives the command back
with its length. -/
def Obligations.DecodeOfEncodeIsTheCommand : Prop :=
  ∀ (i : Instr) (rest : List Byte), i.wellFormed = true →
    decode (encode i ++ rest) = .command i (encode i).length

/-- spec/30_encoding.md R60 to R63: whatever bytes decode to a command are the bytes of that well-formed command: each word has
one meaning and each command one word. -/
def Obligations.EncodeOfDecodeIsTheBytes : Prop :=
  ∀ (bytes : List Byte) (i : Instr) (n : Nat), decode bytes = .command i n →
    i.wellFormed = true ∧ n = (encode i).length ∧ encode i <+: bytes

/-- spec/30_encoding.md R75: every proper initial part of a command's bytes is `incomplete`. -/
def Obligations.CutShortCommandIsIncomplete : Prop :=
  ∀ (i : Instr) (k : Nat), i.wellFormed = true → k < (encode i).length → decode ((encode i).take k) = .incomplete

/-- spec/30_encoding.md R73: the 240 opcode bytes outside R63 are one-byte illegal commands, whatever follows. -/
def Obligations.UndefinedOpcodeIsAOneByteIllegalCommand : Prop :=
  (∀ (op : Byte) (rest : List Byte),
    op ∉ [0x00, 0x01, 0x02, 0x10, 0x11, 0x12, 0x13, 0x14, 0x20, 0x21, 0x22, 0x23, 0x24, 0x25, 0x26, 0x27] →
    decode (op :: rest) = .illegal op 1 ∧
    ∀ s : State, s.resetIn = false → s.cmdIn = op :: rest →
      step s = .next { s with
        cmderr := true, cmdIn := rest, responses := s.responses ++ [⟨5, op.setWidth 64⟩] }) ∧
  ((List.range 256).filter fun k => decide (decode [BitVec.ofNat 8 k] = .illegal (BitVec.ofNat 8 k) 1)).length = 240

/-- spec/30_encoding.md R82: the worked encodings decode to the commands they stand for. -/
def Obligations.WorkedEncodingsDecode : Prop :=
  decode [0x00] = .command .nop 1 ∧
  decode [0x01] = .command .reset 1 ∧
  decode [0x02, 0x12] = .command (.rdreg 0x12) 2 ∧
  decode [0x10] = .command .encInit 1 ∧
  decode [0x11] = .command .ctClear 1 ∧
  decode [0x12, 0x20, 0x03, 0xC0] = .command (.ctSetOf 0x20 [true, true, false]) 4 ∧
  decode [0x12, 0x00, 0x09, 0xAA, 0x80] =
    .command (.ctSetOf 0x00 [true, false, true, false, true, false, true, false, true]) 5 ∧
  decode [0x13, 0x61] = .command (.encSym 0x61) 2 ∧
  decode [0x14] = .command .encFlush 1 ∧
  decode [0x20] = .command .decInit 1 ∧
  decode [0x21] = .command .treeClear 1 ∧
  decode [0x22, 0x00, 0x03, 0x6D] = .command (.treeLeaf 3 0x6D) 4 ∧
  decode [0x23, 0x01, 0xFE, 0x01, 0x00, 0x01, 0x2C] = .command (.treeInt 510 256 300) 7 ∧
  decode [0x24, 0x00, 0x00] = .command (.treeRoot 0) 3 ∧
  decode [0x25, 0x01] = .command (.decBit 1) 2 ∧
  decode [0x26, 0x78, 0x06] = .command (.decByte 0x78 6) 3 ∧
  decode [0x27] = .command .decEnd 1

/-- spec/30_encoding.md R80, R82: the listing lines of the worked encodings assemble to their bytes. -/
def Obligations.WorkedListingsAssemble : Prop :=
  assembleLine ['C', 'T', '_', 'S', 'E', 'T', ' ', '\'', 'r', '\'', ',', ' ', '"', '1', '1', '1', '"'] =
    some [0x12, 0x72, 0x03, 0xE0] ∧
  assembleLine ['T', 'R', 'E', 'E', '_', 'L', 'E', 'A', 'F', ' ', '3', ',', ' ', '\'', 'm', '\''] =
    some [0x22, 0x00, 0x03, 0x6D] ∧
  assembleLine ['D', 'E', 'C', '_', 'B', 'Y', 'T', 'E', ' ', '0', 'x', '7', '8', ',', ' ', '6', ' ', ';', 'x'] =
    some [0x26, 0x78, 0x06]

/-- spec/30_encoding.md R78: a response is nine bytes, the code, then the information word most significant byte first. -/
def Obligations.ResponseIsNineBytesBigEndian : Prop :=
  (∀ r : Response, r.bytes.length = 9 ∧ r.bytes[0]? = some r.code ∧
    ∀ k, k < 8 → r.bytes[k + 1]? = some (r.info.extractLsb' (8 * (7 - k)) 8)) ∧
  Response.bytes ⟨0, 30⟩ = [0x00, 0x00, 0x00, 0x00, 0x00, 0x00, 0x00, 0x00, 0x1E] ∧
  Response.bytes ⟨2, 0x63⟩ = [0x02, 0x00, 0x00, 0x00, 0x00, 0x00, 0x00, 0x00, 0x63]

/-! ### Invariants -/

/-- spec/10_state.md R38, R39: the reset state satisfies the invariant, and no error code is latched or answered in it. -/
def Obligations.ResetStateSatisfiesTheInvariant : Prop := State.reset.Inv ∧ State.reset.CodesInv

/-- spec/10_state.md R39 (a) to (h), with the canonical form of the table memories: from every state that satisfies the
invariant every step leads to one that does. -/
def Obligations.EveryStepKeepsTheInvariant : Prop :=
  ∀ s t : State, s.Inv → step s = .next t → t.Inv

/-! ### Contracts of whole runs -/

/-- spec/41_encoder.md R116: a stream whose symbols all have a code word, and whose length stays below `2^64`, ends `DONE` with
the code words packed in input order and zeros after the last bit. -/
def Obligations.EncoderPacksTheConcatenatedCodeWords : Prop :=
  ∀ (S : List Byte) (W : Bits) (s : State),
    (∀ x ∈ S, (s.enc.ct.read x.toNat).isSome = true) →
    W = (S.flatMap fun x => ((s.enc.ct.read x.toNat).map CodeEntry.code).getD []) → W.length < 2 ^ 64 →
    ∃ t, execAll (.encInit :: (S.map .encSym ++ [.encFlush])) s = .next t ∧
      encResult t = .ok (t.enc.out, t.enc.bitlen) ∧ t.enc.bitlen.toNat = W.length ∧
      t.enc.out.length = ceilDiv8 W.length ∧
      (∀ k, k < 8 * t.enc.out.length → (t.enc.out.getD (k / 8) 0).getLsbD (7 - k % 8) = W.getD k false) ∧
      t.enc.ct = s.enc.ct ∧ t.dec = s.dec ∧ t.cmderr = s.cmderr

/-- spec/41_encoder.md R116: at the first symbol without a code word the encoder fails with code 2 and that symbol, keeps what
the symbols before it left, and answers the same failure to every later command of the stream. -/
def Obligations.EncoderStopsAtTheFirstMissingSymbol : Prop :=
  ∀ (P R : List Byte) (x : Byte) (s : State),
    (∀ y ∈ P, (s.enc.ct.read y.toNat).isSome = true) → s.enc.ct.read x.toNat = none →
    (P.flatMap fun y => ((s.enc.ct.read y.toNat).map CodeEntry.code).getD []).length < 2 ^ 64 →
    ∃ t u, execAll (.encInit :: P.map .encSym) s = .next t ∧
      execAll (.encInit :: ((P ++ x :: R).map .encSym ++ [.encFlush])) s = .next u ∧
      u = { t with
        enc := { t.enc with st := .error, ecode := 2, einfo := x.setWidth 64 }
        responses := t.responses ++ List.replicate (R.length + 2) ⟨2, x.setWidth 64⟩ }

/-- spec/42_decoder.md R140, the empty tree and the single-leaf tree: the empty tree accepts only the empty stream; with a
single leaf each `0` bit is one symbol and the first `1` bit fails with its index. -/
def Obligations.DecoderOfEmptyAndSingleLeafTrees : Prop :=
  (∀ (W : Bits) (s : State), s.dec.root.present = false →
    ∃ t, execAll (.decInit :: (W.map (fun b => .decBit (if b then 1 else 0)) ++ [.decEnd])) s = .next t ∧
      decResult t = if W = [] then .ok [] else .fail 4 0) ∧
  (∀ (W : Bits) (sym : Byte) (s : State), s.dec.root.present = true →
    s.dec.tree.read s.dec.root.idx.toNat = some (.leaf sym) → W.length < 2 ^ 64 →
    ∃ t, execAll (.decInit :: (W.map (fun b => .decBit (if b then 1 else 0)) ++ [.decEnd])) s = .next t ∧
      ((∀ b ∈ W, b = false) → decResult t = .ok (List.replicate W.length sym)) ∧
      (∀ k, k < W.length → W[k]? = some true → (∀ j, j < k → W[j]? = some false) →
        decResult t = .fail 3 (BitVec.ofNat 64 k)))

/-- spec/42_decoder.md R140, ordinary trees, for every numbering of the nodes (spec/40_host_construction.md R100): a bit
sequence is a concatenation of code words, which decodes to their symbols, or one followed by a non-empty proper prefix of a
code word, which fails with code 3 and the number of bits; there is no third case. -/
def Obligations.DecoderOfOrdinaryTrees : Prop :=
  ∀ (T : HuffmanNode) (w : Nat) (l r : HuffmanNode) (W : Bits) (s : State), T = .internal w l r →
    s.dec.root.present = true → s.dec.tree.holdsTree T s.dec.root.idx.toNat → W.length < 2 ^ 64 →
    ∃ t, execAll (.decInit :: (W.map (fun b => .decBit (if b then 1 else 0)) ++ [.decEnd])) s = .next t ∧
      (∀ es : List (Byte × Bits), (∀ e ∈ es, e ∈ codes (some T)) → W = es.flatMap Prod.snd →
        decResult t = .ok (es.map Prod.fst)) ∧
      (∀ (es : List (Byte × Bits)) (p : Bits), (∀ e ∈ es, e ∈ codes (some T)) → p ≠ [] →
        (∃ e ∈ codes (some T), p <+: e.2 ∧ p ≠ e.2) → W = es.flatMap Prod.snd ++ p →
        decResult t = .fail 3 (BitVec.ofNat 64 W.length)) ∧
      (∃ (es : List (Byte × Bits)) (p : Bits), (∀ e ∈ es, e ∈ codes (some T)) ∧ W = es.flatMap Prod.snd ++ p ∧
        (p = [] ∨ ∃ e ∈ codes (some T), p <+: e.2 ∧ p ≠ e.2))

/-- spec/30_encoding.md R81, spec/42_decoder.md R138: feeding packed bytes with `DEC_STREAM` leaves the decoder as one `DEC_BIT`
per stream bit does. -/
def Obligations.DecStreamFeedsTheStreamBits : Prop :=
  ∀ (W : Bits) (s : State), ∃ t u,
    execAll (decStream (packBits W) W.length) s = .next t ∧
    execAll (W.map fun b => .decBit (if b then 1 else 0)) s = .next u ∧ t.dec = u.dec ∧ t.enc = u.enc

/-- spec/40_host_construction.md R104, the round-trip law, for every byte sequence (the empty one by R107): encoding `S` with
the table of its own tree from any state and then decoding the result with that tree gives `S` back. -/
def Obligations.RoundTripLaw : Prop :=
  ∀ (S : List Byte) (s : State) (T : Option HuffmanNode) (C : CodeTable),
    T = buildTree (freq S) → C = codes T → (codeStream C S).length < 2 ^ 64 →
    ∃ (t u : State) (bytes : List Byte) (bitlen : Word),
      execAll (encodeProgram S C) s = .next t ∧ encResult t = .ok (bytes, bitlen) ∧
      bitlen.toNat = (codeStream C S).length ∧
      execAll (decodeProgram bytes bitlen.toNat T) t = .next u ∧ decResult u = .ok S

/-! ### Host-side construction -/

/-- spec/40_host_construction.md R92: `create` is empty; `insert` adds one triple numbered by the inserts before it; `extractMin`
fails exactly on the empty queue, otherwise it removes one triple that no remaining triple precedes in the lexicographic order
on (priority, seq), and returns its item. -/
def Obligations.ExtractMinRemovesTheLeastTriple : Prop :=
  (∀ capacity, (PriorityQueue.create capacity : PriorityQueue HuffmanNode).items = [] ∧
    (PriorityQueue.create capacity : PriorityQueue HuffmanNode).inserts = 0) ∧
  ∀ q : PriorityQueue HuffmanNode,
    (∀ item priority, (q.insert item priority).items.Perm (⟨item, priority, q.inserts⟩ :: q.items) ∧
      (q.insert item priority).inserts = q.inserts + 1) ∧
    q.size = q.items.length ∧ (q.isEmpty = true ↔ q.items = []) ∧
    (q.extractMin = none ↔ q.items = []) ∧
    ∀ a q', q.extractMin = some (a, q') → ∃ m, m.item = a ∧ (m :: q'.items).Perm q.items ∧
      (∀ x ∈ q'.items, ¬ (x.priority < m.priority ∨ (x.priority = m.priority ∧ x.seq < m.seq))) ∧
      q'.inserts = q.inserts

/-- spec/40_host_construction.md R96: the tree of `N` symbols has each of them at exactly one leaf, `2N - 1` nodes, depth at most
`N - 1`, internal weights that are sums, and the total count as root weight; there is no tree for no symbols and a single
leaf for one. -/
def Obligations.BuiltTreeHasOneLeafPerSymbol : Prop :=
  ∀ f : FrequencyTable,
    (participants f = [] → buildTree f = none) ∧
    (∀ sym, participants f = [sym] → buildTree f = some (.leaf sym (f sym))) ∧
    (participants f ≠ [] → ∃ t, buildTree f = some t ∧ t.symbols.Perm (participants f) ∧
      t.size + 1 = 2 * (participants f).length ∧ t.depth + 1 ≤ (participants f).length ∧
      t.weightsAreSums ∧ t.weight = ((participants f).map f).sum)

/-- spec/40_host_construction.md R105: no code word of a tree's code table is a prefix of another. -/
def Obligations.CodeTableOfATreeIsPrefixFree : Prop :=
  ∀ T : Option HuffmanNode, (codes T).Pairwise fun p q => ¬ p.2 <+: q.2 ∧ ¬ q.2 <+: p.2

/-- spec/40_host_construction.md R90, R98, R100, R108 and spec/90_conflicts.md C2: the worked example "ana are mere". -/
def Obligations.WorkedExampleAnaAreMere : Prop :=
  ∀ S : List Byte, S = [0x61, 0x6E, 0x61, 0x20, 0x61, 0x72, 0x65, 0x20, 0x6D, 0x65, 0x72, 0x65] →
    codes (buildTree (freq S)) =
      [(0x6D, [false, false, false]), (0x6E, [false, false, true]), (0x61, [false, true]), (0x65, [true, false]),
       (0x20, [true, true, false]), (0x72, [true, true, true])] ∧
    packBits (codeStream (codes (buildTree (freq S))) S) = [0x4B, 0x9F, 0x61, 0x78] ∧
    weightedLength (freq S) (codes (buildTree (freq S))) = 30 ∧ kraftSum (codes (buildTree (freq S))) = 1

/-- spec/40_host_construction.md R99: after `LoadCT(C)` the memory `CT` is the code table `C`, and nothing else of the block has
changed. -/
def Obligations.LoadCTMakesCTTheCodeTable : Prop :=
  ∀ (C : CodeTable) (s : State), (∀ p ∈ C, 1 ≤ p.2.length ∧ p.2.length ≤ 255) →
    ∃ t, execAll (loadCT C) s = .next t ∧
      (∀ sym : Byte, t.enc.ct.read sym.toNat = (codeOf C sym).map CodeEntry.mk) ∧
      t = { s with enc := { s.enc with ct := t.enc.ct }, responses := t.responses }

/-- spec/40_host_construction.md R100: after `LoadTree(T)` the memories `TREE` and `ROOT` represent `T`, the root at index 0, and
nothing else of the block has changed. -/
def Obligations.LoadTreeMakesTREEHoldTheTree : Prop :=
  (∀ s : State, ∃ t, execAll (loadTree none) s = .next t ∧ t.dec.root = ⟨false, 0⟩ ∧ ∀ k, t.dec.tree.read k = none) ∧
  (∀ (T : HuffmanNode) (s : State), T.size ≤ 511 →
    ∃ t, execAll (loadTree (some T)) s = .next t ∧
      t.dec.root = ⟨true, 0⟩ ∧ t.dec.tree.holdsTree T 0 ∧ (∀ k, T.size ≤ k → t.dec.tree.read k = none) ∧
      t = { s with dec := { s.dec with tree := t.dec.tree, root := t.dec.root }, responses := t.responses })

end
end

