-- ==== Sys2Proof/Laws/Bits.lean ====
section
/-! SUPPORT. Bit sequences and bytes: 16-bit fields, code bytes, packing. -/

namespace Sys2Proof

@[simp] theorem hiByte_append_loByte (v : BitVec 16) : hiByte v ++ loByte v = v := by
  apply BitVec.eq_of_getLsbD_eq
  intro i hi
  simp only [hiByte, loByte, BitVec.getLsbD_append, BitVec.getLsbD_extractLsb']
  by_cases h : i < 8
  · simp [h]
  · have h1 : i - 8 < 8 := by omega
    have h2 : 8 + (i - 8) = i := by omega
    simp [h, h1, h2]

theorem hiByte_append (a b : Byte) : hiByte (a ++ b) = a := by
  apply BitVec.eq_of_getLsbD_eq
  intro i hi
  have h : ¬ 8 + i < 8 := by omega
  simp only [hiByte, BitVec.getLsbD_extractLsb', hi, decide_true, Bool.true_and]
  rw [BitVec.getLsbD_append]
  simp

theorem loByte_append (a b : Byte) : loByte (a ++ b) = b := by
  apply BitVec.eq_of_getLsbD_eq
  intro i hi
  simp only [loByte, BitVec.getLsbD_extractLsb', hi, decide_true, Bool.true_and, Nat.zero_add]
  rw [BitVec.getLsbD_append]
  simp [hi]

@[simp] theorem length_codeBits (len : Nat) (bytes : List Byte) : (codeBits len bytes).length = len := by
  simp [codeBits]

theorem getElem?_codeBits {len i : Nat} (bytes : List Byte) (h : i < len) :
    (codeBits len bytes)[i]? = some ((bytes.getD (i / 8) 0).getLsbD (7 - i % 8)) := by
  simp [codeBits, h]

theorem getLsbD_byteOfBits (f : Nat → Bool) {i : Nat} (h : i < 8) : (byteOfBits f).getLsbD i = f (7 - i) := by
  have h' : (byteOfBits f).getLsbD i = (byteOfBits f).getMsbD (7 - i) := by
    rw [BitVec.getMsbD_eq_getLsbD]
    have h1 : 7 - i < 8 := by omega
    have h2 : 8 - 1 - (7 - i) = i := by omega
    simp [h1, h2]
  rw [h', byteOfBits, BitVec.getMsbD_ofBoolListBE]
  interval_cases i <;> rfl

@[simp] theorem length_packBits (w : Bits) : (packBits w).length = ceilDiv8 w.length := by simp [packBits]

/-- Stream bit `k` is in byte `floor(k/8)` at position `7 - (k mod 8)`; after the last bit come zeros (R42, R43). -/
theorem getLsbD_packBits (w : Bits) (k : Nat) :
    ((packBits w).getD (k / 8) 0).getLsbD (7 - k % 8) = w.getD k false := by
  by_cases h : k / 8 < ceilDiv8 w.length
  · have hk : (packBits w).getD (k / 8) 0 = byteOfBits fun t => w.getD (8 * (k / 8) + t) Config.padBit := by
      simp [packBits, h]
    rw [hk, getLsbD_byteOfBits _ (by omega)]
    have : 8 * (k / 8) + (7 - (7 - k % 8)) = k := by omega
    rw [this]; rfl
  · have h1 : (packBits w).getD (k / 8) 0 = 0 := by simp [List.getD, length_packBits, Nat.le_of_not_lt h]
    have h2 : w.length ≤ k := by unfold ceilDiv8 at h; omega
    rw [h1]
    simp [List.getD, List.getElem?_eq_none h2]

theorem codeBits_packBits (w : Bits) : codeBits w.length (packBits w) = w := by
  apply List.ext_getElem?
  intro i
  by_cases h : i < w.length
  · rw [getElem?_codeBits _ h, getLsbD_packBits]
    simp [List.getD, h]
  · simp [Nat.le_of_not_lt h]

end Sys2Proof
end

