-- ==== Sys2Proof/Laws/State.lean ====
section
/-! SUPPORT. One lemma per field per update of the state, each true by unfolding once, so that no later proof unfolds a
record update of a named operation. -/

namespace Sys2Proof.Machine

/-! ### respond -/

@[simp] theorem respond_cmderr (r : Response) (s : State) : (respond r s).cmderr = s.cmderr := rfl
@[simp] theorem respond_enc (r : Response) (s : State) : (respond r s).enc = s.enc := rfl
@[simp] theorem respond_dec (r : Response) (s : State) : (respond r s).dec = s.dec := rfl
@[simp] theorem respond_cmdIn (r : Response) (s : State) : (respond r s).cmdIn = s.cmdIn := rfl
@[simp] theorem respond_responses (r : Response) (s : State) : (respond r s).responses = s.responses ++ [r] := rfl
@[simp] theorem respond_resetIn (r : Response) (s : State) : (respond r s).resetIn = s.resetIn := rfl

/-! ### respondOk -/

@[simp] theorem respondOk_cmderr (w : Word) (s : State) : (respondOk w s).cmderr = s.cmderr := rfl
@[simp] theorem respondOk_enc (w : Word) (s : State) : (respondOk w s).enc = s.enc := rfl
@[simp] theorem respondOk_dec (w : Word) (s : State) : (respondOk w s).dec = s.dec := rfl
@[simp] theorem respondOk_cmdIn (w : Word) (s : State) : (respondOk w s).cmdIn = s.cmdIn := rfl
@[simp] theorem respondOk_responses (w : Word) (s : State) : (respondOk w s).responses = s.responses ++ [⟨0, w⟩] := rfl
@[simp] theorem respondOk_resetIn (w : Word) (s : State) : (respondOk w s).resetIn = s.resetIn := rfl

/-! ### respondFail -/

@[simp] theorem respondFail_cmderr (c : Byte) (w : Word) (s : State) : (respondFail c w s).cmderr = s.cmderr := rfl
@[simp] theorem respondFail_enc (c : Byte) (w : Word) (s : State) : (respondFail c w s).enc = s.enc := rfl
@[simp] theorem respondFail_dec (c : Byte) (w : Word) (s : State) : (respondFail c w s).dec = s.dec := rfl
@[simp] theorem respondFail_cmdIn (c : Byte) (w : Word) (s : State) : (respondFail c w s).cmdIn = s.cmdIn := rfl
@[simp] theorem respondFail_responses (c : Byte) (w : Word) (s : State) : (respondFail c w s).responses = s.responses ++ [⟨c, w⟩] := rfl
@[simp] theorem respondFail_resetIn (c : Byte) (w : Word) (s : State) : (respondFail c w s).resetIn = s.resetIn := rfl

/-! ### illegal -/

@[simp] theorem illegal_cmderr (op : Byte) (s : State) : (illegal op s).cmderr = true := rfl
@[simp] theorem illegal_enc (op : Byte) (s : State) : (illegal op s).enc = s.enc := rfl
@[simp] theorem illegal_dec (op : Byte) (s : State) : (illegal op s).dec = s.dec := rfl
@[simp] theorem illegal_cmdIn (op : Byte) (s : State) : (illegal op s).cmdIn = s.cmdIn := rfl
@[simp] theorem illegal_responses (op : Byte) (s : State) : (illegal op s).responses = s.responses ++ [⟨5, op.setWidth 64⟩] := rfl
@[simp] theorem illegal_resetIn (op : Byte) (s : State) : (illegal op s).resetIn = s.resetIn := rfl

/-! ### encRaise -/

@[simp] theorem encRaise_cmderr (r : Raised) (s : State) : (encRaise r s).cmderr = s.cmderr := rfl
@[simp] theorem encRaise_enc (r : Raised) (s : State) : (encRaise r s).enc = s.enc.latch r := rfl
@[simp] theorem encRaise_dec (r : Raised) (s : State) : (encRaise r s).dec = s.dec := rfl
@[simp] theorem encRaise_cmdIn (r : Raised) (s : State) : (encRaise r s).cmdIn = s.cmdIn := rfl
@[simp] theorem encRaise_responses (r : Raised) (s : State) : (encRaise r s).responses = s.responses ++ [⟨r.cause.code, r.info⟩] := rfl
@[simp] theorem encRaise_resetIn (r : Raised) (s : State) : (encRaise r s).resetIn = s.resetIn := rfl

/-! ### decRaise -/

@[simp] theorem decRaise_cmderr (r : Raised) (s : State) : (decRaise r s).cmderr = s.cmderr := rfl
@[simp] theorem decRaise_enc (r : Raised) (s : State) : (decRaise r s).enc = s.enc := rfl
@[simp] theorem decRaise_dec (r : Raised) (s : State) : (decRaise r s).dec = s.dec.latch r := rfl
@[simp] theorem decRaise_cmdIn (r : Raised) (s : State) : (decRaise r s).cmdIn = s.cmdIn := rfl
@[simp] theorem decRaise_responses (r : Raised) (s : State) : (decRaise r s).responses = s.responses ++ [⟨r.cause.code, r.info⟩] := rfl
@[simp] theorem decRaise_resetIn (r : Raised) (s : State) : (decRaise r s).resetIn = s.resetIn := rfl

/-! ### encRepeat -/

@[simp] theorem encRepeat_cmderr (s : State) : (encRepeat s).cmderr = s.cmderr := rfl
@[simp] theorem encRepeat_enc (s : State) : (encRepeat s).enc = s.enc := rfl
@[simp] theorem encRepeat_dec (s : State) : (encRepeat s).dec = s.dec := rfl
@[simp] theorem encRepeat_cmdIn (s : State) : (encRepeat s).cmdIn = s.cmdIn := rfl
@[simp] theorem encRepeat_responses (s : State) : (encRepeat s).responses = s.responses ++ [⟨s.enc.ecode, s.enc.einfo⟩] := rfl
@[simp] theorem encRepeat_resetIn (s : State) : (encRepeat s).resetIn = s.resetIn := rfl

/-! ### decRepeat -/

@[simp] theorem decRepeat_cmderr (s : State) : (decRepeat s).cmderr = s.cmderr := rfl
@[simp] theorem decRepeat_enc (s : State) : (decRepeat s).enc = s.enc := rfl
@[simp] theorem decRepeat_dec (s : State) : (decRepeat s).dec = s.dec := rfl
@[simp] theorem decRepeat_cmdIn (s : State) : (decRepeat s).cmdIn = s.cmdIn := rfl
@[simp] theorem decRepeat_responses (s : State) : (decRepeat s).responses = s.responses ++ [⟨s.dec.ecode, s.dec.einfo⟩] := rfl
@[simp] theorem decRepeat_resetIn (s : State) : (decRepeat s).resetIn = s.resetIn := rfl

/-! ### consume -/

@[simp] theorem consume_cmderr (n : Nat) (s : State) : (consume n s).cmderr = s.cmderr := rfl
@[simp] theorem consume_enc (n : Nat) (s : State) : (consume n s).enc = s.enc := rfl
@[simp] theorem consume_dec (n : Nat) (s : State) : (consume n s).dec = s.dec := rfl
@[simp] theorem consume_cmdIn (n : Nat) (s : State) : (consume n s).cmdIn = s.cmdIn.drop n := rfl
@[simp] theorem consume_responses (n : Nat) (s : State) : (consume n s).responses = s.responses := rfl
@[simp] theorem consume_resetIn (n : Nat) (s : State) : (consume n s).resetIn = s.resetIn := rfl

/-! ### resetBlock -/

@[simp] theorem resetBlock_cmderr (s : State) : (resetBlock s).cmderr = false := rfl
@[simp] theorem resetBlock_enc (s : State) : (resetBlock s).enc = Enc.reset := rfl
@[simp] theorem resetBlock_dec (s : State) : (resetBlock s).dec = Dec.reset := rfl
@[simp] theorem resetBlock_cmdIn (s : State) : (resetBlock s).cmdIn = s.cmdIn := rfl
@[simp] theorem resetBlock_responses (s : State) : (resetBlock s).responses = s.responses := rfl
@[simp] theorem resetBlock_resetIn (s : State) : (resetBlock s).resetIn = s.resetIn := rfl

/-! ### hardwareReset -/

@[simp] theorem hardwareReset_cmderr (s : State) : (hardwareReset s).cmderr = false := rfl
@[simp] theorem hardwareReset_enc (s : State) : (hardwareReset s).enc = Enc.reset := rfl
@[simp] theorem hardwareReset_dec (s : State) : (hardwareReset s).dec = Dec.reset := rfl
@[simp] theorem hardwareReset_cmdIn (s : State) : (hardwareReset s).cmdIn = wholeCommandBytes s.cmdIn := rfl
@[simp] theorem hardwareReset_responses (s : State) : (hardwareReset s).responses = s.responses := rfl
@[simp] theorem hardwareReset_resetIn (s : State) : (hardwareReset s).resetIn = false := rfl

/-! ### present -/

@[simp] theorem present_cmderr (bytes : List Byte) (s : State) : (present bytes s).cmderr = s.cmderr := rfl
@[simp] theorem present_enc (bytes : List Byte) (s : State) : (present bytes s).enc = s.enc := rfl
@[simp] theorem present_dec (bytes : List Byte) (s : State) : (present bytes s).dec = s.dec := rfl
@[simp] theorem present_cmdIn (bytes : List Byte) (s : State) : (present bytes s).cmdIn = s.cmdIn ++ bytes := rfl
@[simp] theorem present_responses (bytes : List Byte) (s : State) : (present bytes s).responses = s.responses := rfl
@[simp] theorem present_resetIn (bytes : List Byte) (s : State) : (present bytes s).resetIn = s.resetIn := rfl

/-! ### assertReset -/

@[simp] theorem assertReset_cmderr (s : State) : (assertReset s).cmderr = s.cmderr := rfl
@[simp] theorem assertReset_enc (s : State) : (assertReset s).enc = s.enc := rfl
@[simp] theorem assertReset_dec (s : State) : (assertReset s).dec = s.dec := rfl
@[simp] theorem assertReset_cmdIn (s : State) : (assertReset s).cmdIn = s.cmdIn := rfl
@[simp] theorem assertReset_responses (s : State) : (assertReset s).responses = s.responses := rfl
@[simp] theorem assertReset_resetIn (s : State) : (assertReset s).resetIn = true := rfl

/-! ### Enc.latch -/

@[simp] theorem Enc.latch_ct (r : Raised) (e : Enc) : (e.latch r).ct = e.ct := rfl
@[simp] theorem Enc.latch_st (r : Raised) (e : Enc) : (e.latch r).st = .error := rfl
@[simp] theorem Enc.latch_ecode (r : Raised) (e : Enc) : (e.latch r).ecode = r.cause.code := rfl
@[simp] theorem Enc.latch_einfo (r : Raised) (e : Enc) : (e.latch r).einfo = r.info := rfl
@[simp] theorem Enc.latch_acc (r : Raised) (e : Enc) : (e.latch r).acc = e.acc := rfl
@[simp] theorem Enc.latch_fill (r : Raised) (e : Enc) : (e.latch r).fill = e.fill := rfl
@[simp] theorem Enc.latch_bitlen (r : Raised) (e : Enc) : (e.latch r).bitlen = e.bitlen := rfl
@[simp] theorem Enc.latch_out (r : Raised) (e : Enc) : (e.latch r).out = e.out := rfl

/-! ### Dec.latch -/

@[simp] theorem Dec.latch_tree (r : Raised) (d : Dec) : (d.latch r).tree = d.tree := rfl
@[simp] theorem Dec.latch_root (r : Raised) (d : Dec) : (d.latch r).root = d.root := rfl
@[simp] theorem Dec.latch_node (r : Raised) (d : Dec) : (d.latch r).node = d.node := rfl
@[simp] theorem Dec.latch_mid (r : Raised) (d : Dec) : (d.latch r).mid = d.mid := rfl
@[simp] theorem Dec.latch_st (r : Raised) (d : Dec) : (d.latch r).st = .error := rfl
@[simp] theorem Dec.latch_ecode (r : Raised) (d : Dec) : (d.latch r).ecode = r.cause.code := rfl
@[simp] theorem Dec.latch_einfo (r : Raised) (d : Dec) : (d.latch r).einfo = r.info := rfl
@[simp] theorem Dec.latch_bitcnt (r : Raised) (d : Dec) : (d.latch r).bitcnt = d.bitcnt := rfl
@[simp] theorem Dec.latch_out (r : Raised) (d : Dec) : (d.latch r).out = d.out := rfl

/-! ### Enc.initState -/

@[simp] theorem Enc.initState_ct (e : Enc) : (e.initState).ct = e.ct := rfl
@[simp] theorem Enc.initState_st (e : Enc) : (e.initState).st = .streamOpen := rfl
@[simp] theorem Enc.initState_ecode (e : Enc) : (e.initState).ecode = 0 := rfl
@[simp] theorem Enc.initState_einfo (e : Enc) : (e.initState).einfo = 0 := rfl
@[simp] theorem Enc.initState_acc (e : Enc) : (e.initState).acc = 0 := rfl
@[simp] theorem Enc.initState_fill (e : Enc) : (e.initState).fill = 0 := rfl
@[simp] theorem Enc.initState_bitlen (e : Enc) : (e.initState).bitlen = 0 := rfl
@[simp] theorem Enc.initState_out (e : Enc) : (e.initState).out = [] := rfl

/-! ### Dec.initState -/

@[simp] theorem Dec.initState_tree (d : Dec) : (d.initState).tree = d.tree := rfl
@[simp] theorem Dec.initState_root (d : Dec) : (d.initState).root = d.root := rfl
@[simp] theorem Dec.initState_node (d : Dec) : (d.initState).node = d.root.idx := rfl
@[simp] theorem Dec.initState_mid (d : Dec) : (d.initState).mid = false := rfl
@[simp] theorem Dec.initState_st (d : Dec) : (d.initState).st = .run := rfl
@[simp] theorem Dec.initState_ecode (d : Dec) : (d.initState).ecode = 0 := rfl
@[simp] theorem Dec.initState_einfo (d : Dec) : (d.initState).einfo = 0 := rfl
@[simp] theorem Dec.initState_bitcnt (d : Dec) : (d.initState).bitcnt = 0 := rfl
@[simp] theorem Dec.initState_out (d : Dec) : (d.initState).out = [] := rfl

/-! ### Dec.emit -/

@[simp] theorem Dec.emit_tree (sym : Byte) (d : Dec) : (d.emit sym).tree = d.tree := rfl
@[simp] theorem Dec.emit_root (sym : Byte) (d : Dec) : (d.emit sym).root = d.root := rfl
@[simp] theorem Dec.emit_node (sym : Byte) (d : Dec) : (d.emit sym).node = d.root.idx := rfl
@[simp] theorem Dec.emit_mid (sym : Byte) (d : Dec) : (d.emit sym).mid = false := rfl
@[simp] theorem Dec.emit_st (sym : Byte) (d : Dec) : (d.emit sym).st = d.st := rfl
@[simp] theorem Dec.emit_ecode (sym : Byte) (d : Dec) : (d.emit sym).ecode = d.ecode := rfl
@[simp] theorem Dec.emit_einfo (sym : Byte) (d : Dec) : (d.emit sym).einfo = d.einfo := rfl
@[simp] theorem Dec.emit_bitcnt (sym : Byte) (d : Dec) : (d.emit sym).bitcnt = d.bitcnt + 1 := rfl
@[simp] theorem Dec.emit_out (sym : Byte) (d : Dec) : (d.emit sym).out = d.out ++ [sym] := rfl

/-! ### Dec.descend -/

@[simp] theorem Dec.descend_tree (nxt : Idx) (d : Dec) : (d.descend nxt).tree = d.tree := rfl
@[simp] theorem Dec.descend_root (nxt : Idx) (d : Dec) : (d.descend nxt).root = d.root := rfl
@[simp] theorem Dec.descend_node (nxt : Idx) (d : Dec) : (d.descend nxt).node = nxt := rfl
@[simp] theorem Dec.descend_mid (nxt : Idx) (d : Dec) : (d.descend nxt).mid = true := rfl
@[simp] theorem Dec.descend_st (nxt : Idx) (d : Dec) : (d.descend nxt).st = d.st := rfl
@[simp] theorem Dec.descend_ecode (nxt : Idx) (d : Dec) : (d.descend nxt).ecode = d.ecode := rfl
@[simp] theorem Dec.descend_einfo (nxt : Idx) (d : Dec) : (d.descend nxt).einfo = d.einfo := rfl
@[simp] theorem Dec.descend_bitcnt (nxt : Idx) (d : Dec) : (d.descend nxt).bitcnt = d.bitcnt + 1 := rfl
@[simp] theorem Dec.descend_out (nxt : Idx) (d : Dec) : (d.descend nxt).out = d.out := rfl

/-! ### Enc.flush -/

@[simp] theorem Enc.flush_ct (e : Enc) : (e.flush).ct = e.ct := rfl
@[simp] theorem Enc.flush_st (e : Enc) : (e.flush).st = .done := rfl
@[simp] theorem Enc.flush_ecode (e : Enc) : (e.flush).ecode = e.ecode := rfl
@[simp] theorem Enc.flush_einfo (e : Enc) : (e.flush).einfo = e.einfo := rfl
@[simp] theorem Enc.flush_acc (e : Enc) : (e.flush).acc = 0 := rfl
@[simp] theorem Enc.flush_fill (e : Enc) : (e.flush).fill = 0 := rfl
@[simp] theorem Enc.flush_bitlen (e : Enc) : (e.flush).bitlen = e.bitlen := rfl
@[simp] theorem Enc.flush_out (e : Enc) : (e.flush).out = if e.fill = 0 then e.out else e.out ++ [e.acc] := rfl

end Sys2Proof.Machine
end

