-- ==== Sys2Proof/Laws/Tables.lean ====
section
/-! SUPPORT. The table memories: a read after a write, and the canonical form that every memory operation keeps. -/

namespace Sys2Proof.Machine

variable {α : Type}

@[simp] theorem Table.read_empty (k : Nat) : Table.read (Table.empty : Table α) k = none := rfl

@[simp] theorem Table.read_nil (k : Nat) : Table.read ([] : Table α) k = none := rfl

@[simp] theorem Table.read_write_same (t : Table α) (k : Nat) (e : α) : (t.write k e).read k = some e := by
  induction t with
  | nil => simp [Table.write, Table.read]
  | cons p rest ih =>
    obtain ⟨k', e'⟩ := p
    simp only [Table.write]
    split
    · simp [Table.read]
    · split
      · simp [Table.read]
      · have : k' ≠ k := fun h => ‹¬k = k'› h.symm
        simp [Table.read, this, ih]

theorem Table.read_write_other (t : Table α) {k j : Nat} (e : α) (h : j ≠ k) : (t.write k e).read j = t.read j := by
  induction t with
  | nil => simp [Table.write, Table.read, Ne.symm h]
  | cons p rest ih =>
    obtain ⟨k', e'⟩ := p
    simp only [Table.write]
    split
    · simp [Table.read, Ne.symm h]
    · split
      · subst_vars; simp [Table.read, Ne.symm h]
      · simp [Table.read, ih]

theorem Table.read_write (t : Table α) (k j : Nat) (e : α) :
    (t.write k e).read j = if j = k then some e else t.read j := by
  by_cases h : j = k
  · subst h; simp
  · simp [h, Table.read_write_other t e h]

/-- What a read returns is a listed entry. -/
theorem Table.mem_of_read {t : Table α} {k : Nat} {e : α} (h : t.read k = some e) : (k, e) ∈ t := by
  induction t with
  | nil => simp at h
  | cons p rest ih =>
    obtain ⟨k', e'⟩ := p
    by_cases hk : k' = k
    · simp [Table.read, hk] at h; simp [hk, h]
    · simp [Table.read, hk] at h; exact List.mem_cons_of_mem _ (ih h)

/-- After a write every listed entry is the one written or was listed before. -/
theorem Table.mem_write {t : Table α} {k : Nat} {e : α} {p : Nat × α} (h : p ∈ t.write k e) : p = (k, e) ∨ p ∈ t := by
  induction t with
  | nil => simpa [Table.write] using h
  | cons q rest ih =>
    obtain ⟨k', e'⟩ := q
    simp only [Table.write] at h
    split at h
    · simpa using h
    · split at h
      · rcases List.mem_cons.1 h with h | h
        · exact .inl h
        · exact .inr (List.mem_cons_of_mem _ h)
      · rcases List.mem_cons.1 h with h | h
        · exact .inr (h ▸ List.mem_cons_self)
        · exact (ih h).imp id (List.mem_cons_of_mem _)

theorem Table.mem_write_keys {t : Table α} {k j : Nat} {e : α} (h : j ∈ (t.write k e).map Prod.fst) :
    j = k ∨ j ∈ t.map Prod.fst := by
  obtain ⟨p, hp, rfl⟩ := List.mem_map.1 h
  rcases Table.mem_write hp with rfl | hp
  · exact .inl rfl
  · exact .inr (List.mem_map_of_mem hp)

theorem Table.wf_empty (size : Nat) : (Table.empty : Table α).wf size := ⟨List.Pairwise.nil, by simp [Table.empty]⟩

/-- A write at a legal index keeps the canonical form. -/
theorem Table.wf_write {size : Nat} {t : Table α} {k : Nat} (e : α) (hk : k < size) (h : t.wf size) :
    (t.write k e).wf size := by
  refine ⟨?_, fun j hj => (Table.mem_write_keys hj).elim (fun h => h ▸ hk) (h.2 j)⟩
  replace h := h.1
  induction t with
  | nil => simp [Table.write]
  | cons p rest ih =>
    obtain ⟨k', e'⟩ := p
    simp only [List.map_cons, List.pairwise_cons] at h
    simp only [Table.write]
    split
    · rename_i hlt
      simp only [List.map_cons, List.pairwise_cons, List.mem_cons]
      exact ⟨fun a ha => ha.elim (fun h => h ▸ hlt) fun ha => hlt.trans (h.1 a ha), h.1, h.2⟩
    · split
      · subst_vars; simpa using h
      · simp only [List.map_cons, List.pairwise_cons]
        refine ⟨fun a ha => ?_, ih h.2⟩
        rcases Table.mem_write_keys ha with rfl | ha
        · omega
        · exact h.1 a ha

end Sys2Proof.Machine
end

