-- ==== Sys2Proof/Laws/Decoder.lean ====
section
/-! SUPPORT. What `DecStep` does, said once as cases, and what feeding several bits does: the fields it leaves alone, splitting a
bit sequence, the invariant of spec/10_state.md R39. -/

namespace Sys2Proof.Machine

/-- Everything a successful `DecStep` can do (R136): emit a symbol of a leaf, or descend to an internal child. -/
theorem Dec.decStep_ok {b : Bool} {d d' : Dec} (h : d.decStep b = .ok d') :
    d.bitcnt.toNat ≠ Config.maxCount ∧ d.root.present = true ∧
    ((∃ sym, d.tree.read d.cur.toNat = some (.leaf sym) ∧ d.mid = false ∧ b = false ∧ d' = d.emit sym) ∨
     (∃ l r, d.tree.read d.cur.toNat = some (.internal l r) ∧
       ((∃ sym, d.tree.read (if b then r else l).toNat = some (.leaf sym) ∧ d' = d.emit sym) ∨
        (∃ l' r', d.tree.read (if b then r else l).toNat = some (.internal l' r') ∧
          d' = d.descend (if b then r else l))))) := by
  unfold Dec.decStep at h
  split at h
  · cases h
  · rename_i hc
    split at h
    · cases h
    · rename_i hp
      refine ⟨hc, by simpa using hp, ?_⟩
      split at h
      · cases h
      · rename_i sym hr
        split at h
        · cases h
        · rename_i hm
          split at h
          · cases h
          · rename_i hb
            cases h
            exact .inl ⟨sym, hr, by simpa using hm, by simpa using hb, rfl⟩
      · rename_i l r hr
        refine .inr ⟨l, r, hr, ?_⟩
        split at h
        · cases h
        · rename_i sym hr'
          cases h
          exact .inl ⟨sym, hr', rfl⟩
        · rename_i l' r' hr'
          cases h
          exact .inr ⟨l', r', hr', rfl⟩

/-- The causes `DecStep` raises (R180). -/
theorem Dec.decStep_error {b : Bool} {d : Dec} {r : Raised} (h : d.decStep b = .error r) :
    r.cause = .lengthOverflow ∨ r.cause = .emptyTreeNonEmptyStream ∨ r.cause = .invalidNode ∨
      r.cause = .malformedStream := by
  unfold Dec.decStep at h
  split at h
  · cases h; simp
  · split at h
    · cases h; simp
    · split at h
      · cases h; simp
      · split at h
        · cases h; simp
        · split at h
          · cases h; simp
          · cases h
      · split at h
        · cases h; simp
        · cases h
        · cases h

/-- A successful `DecStep` leaves the tables, the state field and the latched error alone. -/
theorem Dec.decStep_frame {b : Bool} {d d' : Dec} (h : d.decStep b = .ok d') :
    d'.tree = d.tree ∧ d'.root = d.root ∧ d'.st = d.st ∧ d'.ecode = d.ecode ∧ d'.einfo = d.einfo ∧
      d'.bitcnt = d.bitcnt + 1 := by
  obtain ⟨_, _, ⟨_, _, _, _, rfl⟩ | ⟨_, _, _, ⟨_, _, rfl⟩ | ⟨_, _, _, rfl⟩⟩⟩ := Dec.decStep_ok h <;> simp

/-- Feeding bits leaves the tables, the state field and the latched error alone. -/
theorem Dec.feed_frame (w : Bits) (d : Dec) :
    (d.feed w).1.tree = d.tree ∧ (d.feed w).1.root = d.root ∧ (d.feed w).1.st = d.st ∧
      (d.feed w).1.ecode = d.ecode ∧ (d.feed w).1.einfo = d.einfo := by
  induction w generalizing d with
  | nil => simp [Dec.feed]
  | cons b rest ih =>
    unfold Dec.feed
    cases hs : d.decStep b with
    | error r => simp
    | ok d' =>
      have h1 := Dec.decStep_frame hs
      have h2 := ih d'
      simp only [h1] at h2
      simpa using h2

/-- What feeding raises is what one of its transitions raises. -/
theorem Dec.feed_raised {w : Bits} {d : Dec} {r : Raised} (h : (d.feed w).2 = some r) :
    r.cause = .lengthOverflow ∨ r.cause = .emptyTreeNonEmptyStream ∨ r.cause = .invalidNode ∨
      r.cause = .malformedStream := by
  induction w generalizing d with
  | nil => simp [Dec.feed] at h
  | cons b rest ih =>
    unfold Dec.feed at h
    cases hs : d.decStep b with
    | error r' => rw [hs] at h; simp at h; subst h; exact Dec.decStep_error hs
    | ok d' => rw [hs] at h; exact ih h

/-- Feeding `w ++ v` is feeding `w`, then `v` if nothing was raised. -/
theorem Dec.feed_append (w v : Bits) (d : Dec) :
    d.feed (w ++ v) = match d.feed w with
      | (d', none) => d'.feed v
      | (d', some r) => (d', some r) := by
  induction w generalizing d with
  | nil => simp [Dec.feed]
  | cons b rest ih =>
    simp only [List.cons_append, Dec.feed]
    cases hs : d.decStep b with
    | error r => simp
    | ok d' => simp [ih]

theorem Dec.feed_cons_ok {b : Bool} {d d' : Dec} (w : Bits) (h : d.decStep b = .ok d') :
    d.feed (b :: w) = d'.feed w := by simp [Dec.feed, h]

theorem Dec.feed_cons_error {b : Bool} {d : Dec} {r : Raised} (w : Bits) (h : d.decStep b = .error r) :
    d.feed (b :: w) = (d, some r) := by simp [Dec.feed, h]

theorem Dec.Inv.cur_idx {d : Dec} (h : d.Inv) : d.cur.toNat ≤ 510 := by
  unfold Dec.cur; split
  · exact h.node_idx
  · exact h.root_idx

/-- A successful `DecStep` in `RUN` keeps the invariant (R39). -/
theorem Dec.Inv.decStep {b : Bool} {d d' : Dec} (h : d.Inv) (hst : d.st = .run) (hs : d.decStep b = .ok d') : d'.Inv := by
  obtain ⟨hc, _, hcase⟩ := Dec.decStep_ok hs
  have hbc : (d.bitcnt + 1).toNat = d.bitcnt.toNat + 1 := by
    have := d.bitcnt.isLt
    rw [BitVec.toNat_add]; unfold Config.maxCount at hc; exact Nat.mod_eq_of_lt (by simp; omega)
  have hout := h.counts
  have emit : ∀ sym, (d.emit sym).Inv := fun sym =>
    ⟨h.tree_wf, h.entries, h.root_idx, h.root_absent, h.root_idx, h.no_error, fun hd => by simp [hst] at hd,
      by simp only [Dec.emit_out, Dec.emit_bitcnt, hbc, List.length_append, List.length_singleton]; omega⟩
  rcases hcase with ⟨sym, _, _, _, rfl⟩ | ⟨l, r, hr, ⟨sym, _, rfl⟩ | ⟨l', r', _, rfl⟩⟩
  · exact emit sym
  · exact emit sym
  · have he : l.toNat ≤ 510 ∧ r.toNat ≤ 510 := h.entries _ (Table.mem_of_read hr)
    refine ⟨h.tree_wf, h.entries, h.root_idx, h.root_absent, ?_, h.no_error, fun hd => by simp [hst] at hd, ?_⟩
    · cases b
      · exact he.1
      · exact he.2
    · simp only [Dec.descend_out, Dec.descend_bitcnt, hbc]; omega

theorem Dec.Inv.feed {w : Bits} {d : Dec} (h : d.Inv) (hst : d.st = .run) : (d.feed w).1.Inv := by
  induction w generalizing d with
  | nil => exact h
  | cons b rest ih =>
    cases hs : d.decStep b with
    | error r => rw [Dec.feed_cons_error _ hs]; exact h
    | ok d' =>
      rw [Dec.feed_cons_ok _ hs]
      exact ih (h.decStep hst hs) (by rw [(Dec.decStep_frame hs).2.2.1, hst])

/-- Error entry keeps the invariant (R39 (b)). -/
theorem Dec.Inv.latch {d : Dec} (h : d.Inv) (r : Raised) : (d.latch r).Inv :=
  ⟨h.tree_wf, h.entries, h.root_idx, h.root_absent, h.node_idx, fun he => by simp at he, fun hd => by simp at hd, h.counts⟩

end Sys2Proof.Machine
end

