-- ==== Sys2Proof/Laws/Encoder.lean ====
section
/-! SUPPORT. What `PushBit` and the flush do to the encoder, said once: fields they leave alone, the stream bits, the counts,
and the invariant of spec/10_state.md R39. -/

namespace Sys2Proof.Machine

theorem getLsbD_setBit (v : Byte) {i j : Nat} (b : Bool) (hi : i < 8) (hj : j < 8) :
    (setBit v i b).getLsbD j = if j = i then b else v.getLsbD j := by
  have h1 : ((1 : Byte) <<< i).getLsbD j = decide (j = i) := by
    rw [BitVec.getLsbD_shiftLeft]
    by_cases h : j < i
    · have : j ≠ i := by omega
      simp [h, this]
    · simp only [hj, h, decide_true, decide_false, Bool.not_false, Bool.true_and]
      have : (1 : Byte).getLsbD (j - i) = decide (j - i = 0) := by
        have : j - i < 8 := by omega
        generalize j - i = k at this ⊢
        interval_cases k <;> rfl
      rw [this]
      congr 1
      apply propext; omega
  unfold setBit
  cases b
  · simp only [Bool.false_eq_true, if_false, BitVec.getLsbD_and, BitVec.getLsbD_not, h1, hj, decide_true, Bool.true_and]
    by_cases h : j = i <;> simp [h]
  · simp only [if_true, BitVec.getLsbD_or, h1]
    by_cases h : j = i <;> simp [h]

@[simp] theorem length_byteBits (b : Byte) : (byteBits b).length = 8 := by simp [byteBits]

theorem getElem?_byteBits (v : Byte) {t : Nat} (h : t < 8) : (byteBits v)[t]? = some (v.getLsbD (7 - t)) := by
  simp [byteBits, h]

/-- Writing the next free position of the bit buffer appends one bit to the bits it holds. -/
theorem take_byteBits_setBit (v : Byte) (b : Bool) {f : Nat} (h : f ≤ 7) :
    (byteBits (setBit v (7 - f) b)).take (f + 1) = (byteBits v).take f ++ [b] := by
  apply List.ext_getElem?
  intro t
  rcases Nat.lt_trichotomy t f with ht | ht | ht
  · rw [List.getElem?_take_of_lt (by omega), getElem?_byteBits _ (by omega),
      List.getElem?_append_left (by simp; omega), List.getElem?_take_of_lt ht, getElem?_byteBits _ (by omega),
      getLsbD_setBit _ _ (by omega) (by omega)]
    simp; omega
  · subst ht
    rw [List.getElem?_take_of_lt (by omega), getElem?_byteBits _ (by omega), getLsbD_setBit _ _ (by omega) (by omega)]
    have : ((byteBits v).take t).length = t := by simp; omega
    simp [this]
  · rw [List.getElem?_eq_none (by simp; omega), List.getElem?_eq_none (by simp; omega)]

/-- What one `PushBit` does (R113): the buffer has room, or it fills and the byte leaves. -/
theorem Enc.pushBit_cases (b : Bool) (e : Enc) :
    (e.fill.toNat < 7 ∧ e.pushBit b =
      { e with acc := setBit e.acc (7 - e.fill.toNat) b, fill := e.fill + 1, bitlen := e.bitlen + 1 } ∧
      (e.fill + 1).toNat = e.fill.toNat + 1) ∨
    (e.fill.toNat = 7 ∧ e.pushBit b =
      { e with out := e.out ++ [setBit e.acc 0 b], acc := 0, fill := 0, bitlen := e.bitlen + 1 }) := by
  have hlt := e.fill.isLt
  by_cases h : e.fill = 7
  · right
    have h7 : e.fill.toNat = 7 := by rw [h]; rfl
    refine ⟨h7, ?_⟩
    simp [Enc.pushBit, h]
  · left
    have h7 : e.fill.toNat ≠ 7 := fun hn => h (BitVec.eq_of_toNat_eq hn)
    refine ⟨by omega, ?_, ?_⟩
    · unfold Enc.pushBit; simp only []; rw [if_neg h]
    · rw [BitVec.toNat_add]
      exact Nat.mod_eq_of_lt (by simp; omega)

@[simp] theorem Enc.pushBit_ct (b : Bool) (e : Enc) : (e.pushBit b).ct = e.ct := by unfold Enc.pushBit; simp only []; split <;> rfl
@[simp] theorem Enc.pushBit_st (b : Bool) (e : Enc) : (e.pushBit b).st = e.st := by unfold Enc.pushBit; simp only []; split <;> rfl
@[simp] theorem Enc.pushBit_ecode (b : Bool) (e : Enc) : (e.pushBit b).ecode = e.ecode := by unfold Enc.pushBit; simp only []; split <;> rfl
@[simp] theorem Enc.pushBit_einfo (b : Bool) (e : Enc) : (e.pushBit b).einfo = e.einfo := by unfold Enc.pushBit; simp only []; split <;> rfl
@[simp] theorem Enc.pushBit_bitlen (b : Bool) (e : Enc) : (e.pushBit b).bitlen = e.bitlen + 1 := by
  unfold Enc.pushBit; simp only []; split <;> rfl

theorem Enc.pushBits_eq_foldl (w : Bits) (e : Enc) : e.pushBits w = w.foldl (fun x b => x.pushBit b) e := by
  induction w generalizing e with
  | nil => rfl
  | cons b rest ih => exact ih (e.pushBit b)

theorem Enc.pushBits_append (w v : Bits) (e : Enc) : e.pushBits (w ++ v) = (e.pushBits w).pushBits v := by
  simp [Enc.pushBits_eq_foldl, List.foldl_append]

@[simp] theorem Enc.pushBits_ct (w : Bits) (e : Enc) : (e.pushBits w).ct = e.ct := by
  induction w generalizing e with
  | nil => rfl
  | cons b rest ih => simp [Enc.pushBits, ih]

@[simp] theorem Enc.pushBits_st (w : Bits) (e : Enc) : (e.pushBits w).st = e.st := by
  induction w generalizing e with
  | nil => rfl
  | cons b rest ih => simp [Enc.pushBits, ih]

@[simp] theorem Enc.pushBits_ecode (w : Bits) (e : Enc) : (e.pushBits w).ecode = e.ecode := by
  induction w generalizing e with
  | nil => rfl
  | cons b rest ih => simp [Enc.pushBits, ih]

@[simp] theorem Enc.pushBits_einfo (w : Bits) (e : Enc) : (e.pushBits w).einfo = e.einfo := by
  induction w generalizing e with
  | nil => rfl
  | cons b rest ih => simp [Enc.pushBits, ih]

/-- `BITLEN` counts the bits pushed; below the limit it does not wrap (R117). -/
theorem Enc.pushBits_bitlen (w : Bits) (e : Enc) (h : e.bitlen.toNat + w.length ≤ Config.maxCount) :
    (e.pushBits w).bitlen.toNat = e.bitlen.toNat + w.length := by
  induction w generalizing e with
  | nil => rfl
  | cons b rest ih =>
    simp only [List.length_cons, Config.maxCount] at h ih ⊢
    have h1 : (e.pushBit b).bitlen.toNat = e.bitlen.toNat + 1 := by
      rw [Enc.pushBit_bitlen, BitVec.toNat_add]
      exact Nat.mod_eq_of_lt (by simp; omega)
    rw [Enc.pushBits, ih _ (by omega), h1]; omega

theorem Enc.pushBit_fill (b : Bool) (e : Enc) : (e.pushBit b).fill.toNat = (e.fill.toNat + 1) % 8 := by
  rcases e.pushBit_cases b with ⟨h, he, hf⟩ | ⟨h, he⟩
  · rw [he]; simp only [hf]; omega
  · rw [he]; simp [h]

theorem Enc.pushBits_fill (w : Bits) (e : Enc) : (e.pushBits w).fill.toNat = (e.fill.toNat + w.length) % 8 := by
  induction w generalizing e with
  | nil => have := e.fill.isLt; simp [Enc.pushBits]; omega
  | cons b rest ih => rw [Enc.pushBits, ih, Enc.pushBit_fill]; simp; omega

/-- One `PushBit` appends one bit to the stream (R41, R113). -/
theorem Enc.streamBits_pushBit (b : Bool) (e : Enc) : (e.pushBit b).streamBits = e.streamBits ++ [b] := by
  rcases e.pushBit_cases b with ⟨h, he, hf⟩ | ⟨h, he⟩
  · rw [he]
    simp only [Enc.streamBits, hf, take_byteBits_setBit e.acc b (by omega : e.fill.toNat ≤ 7), List.append_assoc]
  · rw [he]
    have := take_byteBits_setBit e.acc b (f := 7) (by omega)
    rw [List.take_of_length_le (by simp)] at this
    simp [Enc.streamBits, h, this]

theorem Enc.streamBits_pushBits (w : Bits) (e : Enc) : (e.pushBits w).streamBits = e.streamBits ++ w := by
  induction w generalizing e with
  | nil => simp [Enc.pushBits]
  | cons b rest ih => rw [Enc.pushBits, ih, Enc.streamBits_pushBit]; simp

theorem Enc.out_prefix_pushBit (b : Bool) (e : Enc) : e.out <+: (e.pushBit b).out := by
  rcases e.pushBit_cases b with ⟨_, he, _⟩ | ⟨_, he⟩ <;> simp [he]

/-- `ENC_OUT` is append-only (R23). -/
theorem Enc.out_prefix_pushBits (w : Bits) (e : Enc) : e.out <+: (e.pushBits w).out := by
  induction w generalizing e with
  | nil => simp [Enc.pushBits]
  | cons b rest ih => exact (e.out_prefix_pushBit b).trans (ih _)

theorem Enc.length_streamBits (e : Enc) : e.streamBits.length = 8 * e.out.length + e.fill.toNat := by
  have h := e.fill.isLt
  have : (e.out.flatMap byteBits).length = 8 * e.out.length := by
    induction e.out with
    | nil => rfl
    | cons b rest ih => simp [ih]; omega
  simp [Enc.streamBits, this]; omega

/-- One `PushBit` keeps the invariant of an open stream (R39). -/
theorem Enc.Inv.pushBit {e : Enc} (h : e.Inv) (hst : e.st = .streamOpen) (hb : e.bitlen.toNat + 1 ≤ Config.maxCount)
    (b : Bool) : (e.pushBit b).Inv := by
  have hbl : (e.bitlen + 1).toNat = e.bitlen.toNat + 1 := by
    rw [BitVec.toNat_add]; unfold Config.maxCount at hb; exact Nat.mod_eq_of_lt (by simp; omega)
  have hc := h.counts (by simp [hst])
  rcases e.pushBit_cases b with ⟨hf, he, hf1⟩ | ⟨hf, he⟩ <;> rw [he]
  · refine ⟨h.ct_wf, h.entries, h.no_error, ?_, ?_, ?_⟩
    · intro j hj
      simp only [hf1] at hj
      show (setBit e.acc (7 - e.fill.toNat) b).getLsbD j = false
      rw [getLsbD_setBit _ _ (by omega) (by omega), if_neg (by omega)]
      exact h.acc_low j (by omega)
    · intro _; simp only [hf1, hbl]; omega
    · intro hd; simp [hst] at hd
  · refine ⟨h.ct_wf, h.entries, h.no_error, ?_, ?_, ?_⟩
    · intro j _; simp
    · intro _
      simp only [hbl, List.length_append, List.length_cons, List.length_nil]
      simp; omega
    · intro hd; simp [hst] at hd

theorem Enc.Inv.pushBits {w : Bits} {e : Enc} (h : e.Inv) (hst : e.st = .streamOpen)
    (hb : e.bitlen.toNat + w.length ≤ Config.maxCount) : (e.pushBits w).Inv := by
  induction w generalizing e with
  | nil => exact h
  | cons b rest ih =>
    simp only [List.length_cons] at hb
    refine ih (h.pushBit hst (by omega) b) (by simp [hst]) ?_
    rw [Enc.pushBit_bitlen, BitVec.toNat_add]
    have : (1 : Word).toNat = 1 := rfl
    unfold Config.maxCount at hb ⊢
    rw [this, Nat.mod_eq_of_lt (by omega)]; omega

/-- The flush of an open stream keeps the invariant (R39 (d)). -/
theorem Enc.Inv.flush {e : Enc} (h : e.Inv) (hst : e.st = .streamOpen) : e.flush.Inv := by
  have hc := h.counts (by simp [hst])
  have hf := e.fill.isLt
  refine ⟨h.ct_wf, h.entries, fun _ => h.no_error (by simp [hst]), ?_, ?_, ?_⟩
  · intro j _; simp
  · intro hd; simp at hd
  · intro _
    refine ⟨rfl, rfl, ?_⟩
    unfold ceilDiv8
    by_cases h0 : e.fill = 0
    · have : e.fill.toNat = 0 := by rw [h0]; rfl
      simp [h0]; omega
    · have : e.fill.toNat ≠ 0 := fun hn => h0 (BitVec.eq_of_toNat_eq hn)
      rw [Enc.flush_out, if_neg h0, Enc.flush_bitlen, List.length_append, List.length_singleton]; omega

/-- Bit `k` of a byte sequence read most significant bit first (R42). -/
theorem getD_flatMap_byteBits (l : List Byte) (k : Nat) :
    (l.flatMap byteBits).getD k false = (l.getD (k / 8) 0).getLsbD (7 - k % 8) := by
  induction l generalizing k with
  | nil => simp
  | cons b rest ih =>
    rw [List.flatMap_cons]
    by_cases h : k < 8
    · have e : k / 8 = 0 := by omega
      have e2 : k % 8 = k := by omega
      rw [List.getD_append _ _ _ _ (by simpa using h), e, e2]
      simp only [List.getD_eq_getElem?_getD, getElem?_byteBits b h]; rfl
    · have e : k / 8 = (k - 8) / 8 + 1 := by omega
      have e2 : (k - 8) % 8 = k % 8 := by omega
      rw [List.getD_append_right _ _ _ _ (by simp; omega), length_byteBits, ih, e, e2]; rfl

/-- After a flush the bytes are the stream bits, packed from the top, then zeros (R42, R43). -/
theorem Enc.flush_bits (e : Enc) (hl : ∀ j, j < 8 - e.fill.toNat → e.acc.getLsbD j = false) (k : Nat) :
    (e.flush.out.getD (k / 8) 0).getLsbD (7 - k % 8) = e.streamBits.getD k false := by
  have hf := e.fill.isLt
  by_cases h0 : e.fill = 0
  · rw [Enc.flush_out, if_pos h0, ← getD_flatMap_byteBits]
    simp [Enc.streamBits, h0]
  · rw [Enc.flush_out, if_neg h0, ← getD_flatMap_byteBits, Enc.streamBits, List.flatMap_append]
    have hlen : (e.out.flatMap byteBits).length = 8 * e.out.length := by
      induction e.out with
      | nil => rfl
      | cons b rest ih => simp [ih]; omega
    by_cases hk : k < 8 * e.out.length
    · rw [List.getD_append _ _ _ _ (by omega), List.getD_append _ _ _ _ (by omega)]
    · rw [List.getD_append_right _ _ _ _ (by omega), List.getD_append_right _ _ _ _ (by omega), hlen]
      generalize k - 8 * e.out.length = m
      by_cases hm : m < e.fill.toNat
      · simp [List.getD_eq_getElem?_getD, List.getElem?_take_of_lt hm]
      · have e1 : ((byteBits e.acc).take e.fill.toNat).getD m false = false := by
          simp [List.getD_eq_getElem?_getD, hm]
        rw [e1]
        by_cases hm8 : m < 8
        · simp only [List.flatMap_cons, List.flatMap_nil, List.append_nil, List.getD_eq_getElem?_getD, getElem?_byteBits _ hm8]
          exact hl _ (by omega)
        · simp [List.getD_eq_getElem?_getD, byteBits, hm8]

end Sys2Proof.Machine
end

