-- ==== Sys2Proof/Laws/Operands.lean ====
section
/-! SUPPORT. Each operand form answers a value exactly on the legal operands of spec/30_encoding.md R74, and which value. -/

namespace Sys2Proof.Machine

theorem treeIndex?_legal {field : BitVec 16} (h : field.toNat ≤ 510) :
    treeIndex? field = some (field.setWidth 9) ∧ (field.setWidth 9).toNat = field.toNat := by
  refine ⟨by simp [treeIndex?, h], ?_⟩
  rw [BitVec.toNat_setWidth]; exact Nat.mod_eq_of_lt (by omega)

theorem treeIndex?_illegal {field : BitVec 16} (h : 510 < field.toNat) : treeIndex? field = none := by
  simp [treeIndex?]; omega

theorem treeIndex?_spec {field : BitVec 16} {i : Idx} (h : treeIndex? field = some i) :
    field.toNat ≤ 510 ∧ i.toNat = field.toNat := by
  by_cases hf : field.toNat ≤ 510
  · rw [(treeIndex?_legal hf).1] at h
    exact ⟨hf, Option.some.inj h ▸ (treeIndex?_legal hf).2⟩
  · rw [treeIndex?_illegal (by omega)] at h; simp at h

theorem legalIndex_iff (idx : BitVec 16) : legalIndex idx = true ↔ idx.toNat ≤ 510 := by
  unfold legalIndex Config.numNodes; rw [decide_eq_true_iff]; omega

theorem bitOperand?_legal {a : Byte} (h : a.extractLsb' 1 7 = 0) : bitOperand? a = some (a.getLsbD 0) := by
  simp [bitOperand?, h]

theorem bitOperand?_illegal {a : Byte} (h : a.extractLsb' 1 7 ≠ 0) : bitOperand? a = none := by
  simp only [bitOperand?, h, if_false]

/-- Bits 7:1 of a byte are 0 exactly when it is 0 or 1. -/
theorem reservedBits_zero_iff (a : Byte) : a.extractLsb' 1 7 = 0 ↔ a.toNat < 2 := by
  revert a; decide

@[simp] theorem bitOperand?_ofBool (b : Bool) : bitOperand? (if b then 1 else 0) = some b := by
  cases b <;> decide

theorem streamBits?_legal {v n : Byte} (h1 : 1 ≤ n.toNat) (h8 : n.toNat ≤ 8) :
    streamBits? v n = some (topBits v n.toNat) := by
  have : ¬ (n.toNat = 0 ∨ n.toNat > 8) := by omega
  simp only [streamBits?, this, if_false]

theorem streamBits?_illegal {v n : Byte} (h : n.toNat = 0 ∨ 8 < n.toNat) : streamBits? v n = none := by
  have : n.toNat = 0 ∨ n.toNat > 8 := h
  simp only [streamBits?, this, if_true]

@[simp] theorem length_topBits (v : Byte) (n : Nat) : (topBits v n).length = n := by simp [topBits]

/-- The low bits of `x` below `2^p` vanish exactly when each of them is 0. -/
theorem mod_two_pow_eq_zero_iff (x : Byte) (p : Nat) :
    x.toNat % 2 ^ p = 0 ↔ ∀ j, j < p → x.getLsbD j = false := by
  constructor
  · intro h j hj
    have : (x.toNat % 2 ^ p).testBit j = x.toNat.testBit j := by simp [Nat.testBit_mod_two_pow, hj]
    rw [h] at this
    simpa [BitVec.getLsbD] using this.symm
  · intro h
    apply Nat.eq_of_testBit_eq
    intro j
    by_cases hj : j < p
    · simpa [Nat.testBit_mod_two_pow, hj, BitVec.getLsbD] using h j hj
    · simp [Nat.testBit_mod_two_pow, hj]

theorem codeWord?_legal {len : Byte} {bytes : List Byte} (h0 : len.toNat ≠ 0) (hl : bytes.length = ceilDiv8 len.toNat)
    (hp : (bytes.getLastD 0).toNat % 2 ^ (8 * ceilDiv8 len.toNat - len.toNat) = 0) :
    codeWord? len bytes = some (codeBits len.toNat bytes) := by
  unfold codeWord?
  generalize bytes.getLastD 0 = last at hp ⊢
  simp only [h0, hl, hp, if_false, ne_eq, not_true]

/-- `CT_SET` carries a code word exactly when its operands are legal (R74). -/
theorem codeWord?_eq_none_iff (len : Byte) (bytes : List Byte) :
    codeWord? len bytes = none ↔ Instr.wellFormed (.ctSet 0 len bytes) = false := by
  have h : len.toNat = 0 ↔ len = 0 := ⟨fun h => BitVec.eq_of_toNat_eq h, fun h => by rw [h]; rfl⟩
  simp only [codeWord?, Instr.wellFormed, paddingIsZero]
  generalize bytes.getLastD 0 = last
  by_cases h0 : len = 0
  · subst h0; simp
  · have h0' : len.toNat ≠ 0 := fun hn => h0 (h.1 hn)
    by_cases hl : bytes.length = ceilDiv8 len.toNat
    · by_cases hp : last.toNat % 2 ^ (8 * ceilDiv8 len.toNat - len.toNat) = 0
      · simp only [h0', hl, hp, if_false, ne_eq, not_true]
        simpa using h0
      · simp only [h0', hl, hp, if_false, ne_eq, not_true, not_false_eq_true, if_true]
        simp [hp]
    · simp [h0', hl]

theorem codeWord?_length {len : Byte} {bytes : List Byte} {code : Bits} (h : codeWord? len bytes = some code) :
    code.length = len.toNat ∧ 1 ≤ code.length ∧ code.length ≤ 255 := by
  unfold codeWord? at h
  split at h
  · simp at h
  · split at h
    · simp at h
    · split at h
      · simp at h
      · cases h; have := len.isLt; simp; omega

/-- The code word an assembled `CT_SET` carries is the one it was assembled from (R62, R80). -/
theorem codeWord?_packBits {w : Bits} (h1 : 1 ≤ w.length) (h2 : w.length ≤ 255) :
    codeWord? (BitVec.ofNat 8 w.length) (packBits w) = some w := by
  have hn : (BitVec.ofNat 8 w.length).toNat = w.length := by
    rw [BitVec.toNat_ofNat]; exact Nat.mod_eq_of_lt (by omega)
  have hlast : (packBits w).getLastD 0 = (packBits w).getD (ceilDiv8 w.length - 1) 0 := by
    have hne : packBits w ≠ [] := by
      intro h; have := congrArg List.length h; simp [ceilDiv8] at this; omega
    rw [List.getLastD_eq_getLast?, List.getLast?_eq_getElem?, List.getD, length_packBits]
  rw [codeWord?_legal]
  · rw [hn, codeBits_packBits]
  · omega
  · simp [hn]
  · rw [hn, hlast, mod_two_pow_eq_zero_iff]
    intro j hj
    have hk : 8 * (ceilDiv8 w.length - 1) + (7 - j) = 8 * (ceilDiv8 w.length - 1) + (7 - j) := rfl
    have hj8 : j < 8 := by unfold ceilDiv8 at hj; omega
    have h := getLsbD_packBits w (8 * (ceilDiv8 w.length - 1) + (7 - j))
    have e1 : (8 * (ceilDiv8 w.length - 1) + (7 - j)) / 8 = ceilDiv8 w.length - 1 := by omega
    have e2 : 7 - (8 * (ceilDiv8 w.length - 1) + (7 - j)) % 8 = j := by omega
    rw [e1, e2] at h
    rw [h]
    have : w.length ≤ 8 * (ceilDiv8 w.length - 1) + (7 - j) := by unfold ceilDiv8 at hj ⊢; omega
    simp [List.getD, List.getElem?_eq_none this]

theorem wellFormed_ctSetOf {sym : Byte} {w : Bits} (h1 : 1 ≤ w.length) (h2 : w.length ≤ 255) :
    (Instr.ctSetOf sym w).wellFormed = true := by
  have h := codeWord?_packBits h1 h2
  cases hw : (Instr.ctSetOf sym w).wellFormed with
  | true => rfl
  | false =>
    have : codeWord? (BitVec.ofNat 8 w.length) (packBits w) = none := (codeWord?_eq_none_iff _ _).2 hw
    rw [this] at h; simp at h

/-- A register number is defined exactly when it names a register (R36, R74). -/
theorem register?_eq_none_iff (r : Byte) : register? r = none ↔ r ∉ definedRegisters := by
  revert r; decide

end Sys2Proof.Machine
end

