-- ==== Sys2Proof/Laws/Exec.lean ====
section
/-! SUPPORT. What `exec` can do, said once for each group of commands (spec/10_state.md R10): an encoder command is a function of
the encoder, a decoder command a function of the decoder. -/

namespace Sys2Proof.Machine

/-- The effect of a command on one engine: the engine's new state, the response, and whether the command was refused. -/
structure EngineEffect (α : Type) where
  engine : α
  response : Response
  refused : Bool

/-- What an effect may be: a refusal changes nothing of the engine and answers code 5 with the opcode (R178); any other effect
answers and latches codes the block produces, never 5, if the code latched before was such a one (R170, R176, R177). -/
structure EngineEffect.Ok {α : Type} (op : Byte) (ecode : α → Byte) (e : α) (x : EngineEffect α) : Prop where
  refuse : x.refused = true → x = ⟨e, ⟨5, op.setWidth 64⟩, true⟩
  answer : x.refused = false → ecode e ∈ producedCodes ∧ ecode e ≠ 5 →
    (x.response.code ∈ producedCodes ∧ x.response.code ≠ 5) ∧ ecode x.engine ∈ producedCodes ∧ ecode x.engine ≠ 5

theorem EngineEffect.Ok.ofRefused {α : Type} (op : Byte) (ecode : α → Byte) (e : α) :
    EngineEffect.Ok op ecode e ⟨e, ⟨5, op.setWidth 64⟩, true⟩ := ⟨fun _ => rfl, fun h => by cases h⟩

theorem EngineEffect.Ok.ofSuccess {α : Type} {op : Byte} {ecode : α → Byte} {e e' : α} {info : Word}
    (h : ecode e' = ecode e ∨ ecode e' = 0) : EngineEffect.Ok op ecode e ⟨e', ⟨0, info⟩, false⟩ := by
  refine ⟨fun h => (by cases h), fun _ hc => ⟨⟨by simp [producedCodes], by simp⟩, ?_⟩⟩
  rcases h with h | h <;> simp only [h]
  · exact hc
  · simp [producedCodes]

theorem EngineEffect.Ok.ofRepeat {α : Type} {op : Byte} {ecode : α → Byte} {e : α} {info : Word} :
    EngineEffect.Ok op ecode e ⟨e, ⟨ecode e, info⟩, false⟩ := ⟨fun h => (by cases h), fun _ hc => ⟨hc, hc⟩⟩

theorem EngineEffect.Ok.ofRaise {α : Type} {op : Byte} {ecode : α → Byte} {e e' : α} {info : Word} {c : Byte}
    (h : ecode e' = c) (hc : c ∈ producedCodes ∧ c ≠ 5) : EngineEffect.Ok op ecode e ⟨e', ⟨c, info⟩, false⟩ :=
  ⟨fun h => (by cases h), fun _ _ => ⟨hc, by rw [h]; exact hc⟩⟩

/-- The causes of `DecStep` are codes the block produces. -/
theorem feed_raised_code {w : Bits} {d : Dec} {r : Raised} (h : (d.feed w).2 = some r) :
    r.cause.code ∈ producedCodes ∧ r.cause.code ≠ 5 := by
  rcases Dec.feed_raised h with h | h | h | h <;> rw [h] <;> decide

/-- An encoder command reads and writes the encoder alone, but for `CMDERR` when it is refused. -/
theorem exec_encoder {i : Instr} (h : i.isEncoder = true) : ∃ f : Enc → EngineEffect Enc,
    (∀ s : State, exec i s = .next { s with
      cmderr := s.cmderr || (f s.enc).refused, enc := (f s.enc).engine, responses := s.responses ++ [(f s.enc).response] }) ∧
    ∀ e, (f e).Ok i.opcode Enc.ecode e := by
  cases i with
  | encInit => exact ⟨fun e => ⟨e.initState, ⟨0, 0⟩, false⟩, fun s => by simp [exec, execEncInit, respondOk, respond],
      fun e => .ofSuccess (.inr rfl)⟩
  | ctClear =>
    exact ⟨fun e => ⟨{ e with ct := Table.empty }, ⟨0, 0⟩, false⟩, fun s => by simp [exec, execCtClear, respondOk, respond],
      fun e => .ofSuccess (.inl rfl)⟩
  | ctSet sym len bytes =>
    refine ⟨fun e => match codeWord? len bytes with
      | none => ⟨e, ⟨5, 0x12⟩, true⟩
      | some code => ⟨{ e with ct := e.ct.write sym.toNat ⟨code⟩ }, ⟨0, 0⟩, false⟩, fun s => ?_, fun x => ?_⟩
    case refine_2 =>
      dsimp only
      split
      · exact .ofRefused _ _ _
      · exact .ofSuccess (.inl rfl)
    simp only [exec, execCtSet]
    cases codeWord? len bytes <;> simp [illegal, respondFail, respondOk, respond, Cause.code]
  | encSym sym =>
    refine ⟨fun e => match e.st with
      | .error => ⟨e, ⟨e.ecode, e.einfo⟩, false⟩
      | .done => ⟨e, ⟨5, 0x13⟩, true⟩
      | .streamOpen => match e.ct.read sym.toNat with
        | none => ⟨e.latch ⟨.symbolNotInCodeTable, sym.setWidth 64⟩, ⟨2, sym.setWidth 64⟩, false⟩
        | some c => if e.bitlen.toNat + c.len > Config.maxCount then
            ⟨e.latch ⟨.lengthOverflow, sym.setWidth 64⟩, ⟨7, sym.setWidth 64⟩, false⟩
          else ⟨e.pushBits c.code, ⟨0, (e.pushBits c.code).bitlen⟩, false⟩, fun s => ?_, fun x => ?_⟩
    case refine_2 =>
      dsimp only
      split
      · exact .ofRepeat
      · exact .ofRefused _ _ _
      · split
        · exact .ofRaise (c := 2) rfl (by decide)
        · split
          · exact .ofRaise (c := 7) rfl (by decide)
          · exact .ofSuccess (.inl (by simp))
    simp only [exec, execEncSym]
    cases s.enc.st
    · cases s.enc.ct.read sym.toNat with
      | none => simp [encRaise, respondFail, respond, Cause.code]
      | some c =>
        by_cases hl : s.enc.bitlen.toNat + c.len > Config.maxCount
        · simp only [hl, if_true]; simp [encRaise, respondFail, respond, Cause.code]
        · simp only [hl, if_false]; simp [respondOk, respond]
    · simp [illegal, respondFail, respond, Cause.code]
    · simp [encRepeat, respondFail, respond]
  | encFlush =>
    refine ⟨fun e => match e.st with
      | .error => ⟨e, ⟨e.ecode, e.einfo⟩, false⟩
      | .done => ⟨e, ⟨0, e.bitlen⟩, false⟩
      | .streamOpen => ⟨e.flush, ⟨0, e.bitlen⟩, false⟩, fun s => ?_, fun x => ?_⟩
    case refine_2 =>
      dsimp only
      split
      · exact .ofRepeat
      · exact .ofSuccess (.inl rfl)
      · exact .ofSuccess (.inl rfl)
    simp only [exec, execEncFlush]
    cases s.enc.st <;> simp [encRepeat, respondFail, respondOk, respond]
  | _ => simp [Instr.isEncoder] at h

/-- The effect of feeding bits, with the error entry when a transition raises (R137, R138, R177). -/
theorem decConsume_effect (w : Bits) (s : State) :
    decConsume w s = { s with
      dec := match (s.dec.feed w).2 with
        | none => (s.dec.feed w).1
        | some r => (s.dec.feed w).1.latch r
      responses := s.responses ++ [match (s.dec.feed w).2 with
        | none => ⟨0, 0⟩
        | some r => ⟨r.cause.code, r.info⟩] } := by
  unfold decConsume
  rcases hf : s.dec.feed w with ⟨d, _ | r⟩ <;> simp [decRaise, respondFail, respondOk, respond]

/-- A decoder command reads and writes the decoder alone, but for `CMDERR` when it is refused. -/
theorem exec_decoder {i : Instr} (h : i.isDecoder = true) : ∃ f : Dec → EngineEffect Dec,
    (∀ s : State, exec i s = .next { s with
      cmderr := s.cmderr || (f s.dec).refused, dec := (f s.dec).engine, responses := s.responses ++ [(f s.dec).response] }) ∧
    ∀ d, (f d).Ok i.opcode Dec.ecode d := by
  cases i with
  | decInit => exact ⟨fun d => ⟨d.initState, ⟨0, 0⟩, false⟩, fun s => by simp [exec, execDecInit, respondOk, respond],
      fun d => .ofSuccess (.inr rfl)⟩
  | treeClear =>
    exact ⟨fun d => ⟨{ d with tree := Table.empty, root := ⟨false, 0⟩ }, ⟨0, 0⟩, false⟩,
      fun s => by simp [exec, execTreeClear, respondOk, respond], fun d => .ofSuccess (.inl rfl)⟩
  | treeLeaf idx sym =>
    refine ⟨fun d => match treeIndex? idx with
      | none => ⟨d, ⟨5, 0x22⟩, true⟩
      | some i => ⟨{ d with tree := d.tree.write i.toNat (.leaf sym) }, ⟨0, 0⟩, false⟩, fun s => ?_, fun x => ?_⟩
    case refine_2 =>
      dsimp only
      split
      · exact .ofRefused _ _ _
      · exact .ofSuccess (.inl rfl)
    simp only [exec, execTreeLeaf]
    cases treeIndex? idx <;> simp [illegal, respondFail, respondOk, respond, Cause.code]
  | treeInt idx left right =>
    refine ⟨fun d => match treeIndex? idx, treeIndex? left, treeIndex? right with
      | some i, some l, some r => ⟨{ d with tree := d.tree.write i.toNat (.internal l r) }, ⟨0, 0⟩, false⟩
      | _, _, _ => ⟨d, ⟨5, 0x23⟩, true⟩, fun s => ?_, fun x => ?_⟩
    case refine_2 =>
      dsimp only
      split
      · exact .ofSuccess (.inl rfl)
      · exact .ofRefused _ _ _
    simp only [exec, execTreeInt]
    cases treeIndex? idx <;> cases treeIndex? left <;> cases treeIndex? right <;>
      simp [illegal, respondFail, respondOk, respond, Cause.code]
  | treeRoot idx =>
    refine ⟨fun d => match treeIndex? idx with
      | none => ⟨d, ⟨5, 0x24⟩, true⟩
      | some i => ⟨{ d with root := ⟨true, i⟩ }, ⟨0, 0⟩, false⟩, fun s => ?_, fun x => ?_⟩
    case refine_2 =>
      dsimp only
      split
      · exact .ofRefused _ _ _
      · exact .ofSuccess (.inl rfl)
    simp only [exec, execTreeRoot]
    cases treeIndex? idx <;> simp [illegal, respondFail, respondOk, respond, Cause.code]
  | decBit a =>
    refine ⟨fun d => match bitOperand? a with
      | none => ⟨d, ⟨5, 0x25⟩, true⟩
      | some b => match d.st with
        | .error => ⟨d, ⟨d.ecode, d.einfo⟩, false⟩
        | .done => ⟨d, ⟨5, 0x25⟩, true⟩
        | .run => match (d.feed [b]).2 with
          | none => ⟨(d.feed [b]).1, ⟨0, 0⟩, false⟩
          | some r => ⟨(d.feed [b]).1.latch r, ⟨r.cause.code, r.info⟩, false⟩, fun s => ?_, fun x => ?_⟩
    case refine_2 =>
      dsimp only
      split
      · exact .ofRefused _ _ _
      · rename_i b _
        split
        · exact .ofRepeat
        · exact .ofRefused _ _ _
        · split
          · exact .ofSuccess (.inl (Dec.feed_frame [b] x).2.2.2.1)
          · rename_i hr
            exact .ofRaise rfl (feed_raised_code hr)
    simp only [exec, execDecBit]
    cases bitOperand? a with
    | none => simp [illegal, respondFail, respond, Cause.code]
    | some b =>
      cases s.dec.st
      · simp only [decConsume_effect]; cases (s.dec.feed [b]).2 <;> simp
      · simp [illegal, respondFail, respond, Cause.code]
      · simp [decRepeat, respondFail, respond]
  | decByte v n =>
    refine ⟨fun d => match streamBits? v n with
      | none => ⟨d, ⟨5, 0x26⟩, true⟩
      | some w => match d.st with
        | .error => ⟨d, ⟨d.ecode, d.einfo⟩, false⟩
        | .done => ⟨d, ⟨5, 0x26⟩, true⟩
        | .run => match (d.feed w).2 with
          | none => ⟨(d.feed w).1, ⟨0, 0⟩, false⟩
          | some r => ⟨(d.feed w).1.latch r, ⟨r.cause.code, r.info⟩, false⟩, fun s => ?_, fun x => ?_⟩
    case refine_2 =>
      dsimp only
      split
      · exact .ofRefused _ _ _
      · rename_i w _
        split
        · exact .ofRepeat
        · exact .ofRefused _ _ _
        · split
          · exact .ofSuccess (.inl (Dec.feed_frame w x).2.2.2.1)
          · rename_i hr
            exact .ofRaise rfl (feed_raised_code hr)
    simp only [exec, execDecByte]
    cases streamBits? v n with
    | none => simp [illegal, respondFail, respond, Cause.code]
    | some w =>
      cases s.dec.st
      · simp only [decConsume_effect]; cases (s.dec.feed w).2 <;> simp
      · simp [illegal, respondFail, respond, Cause.code]
      · simp [decRepeat, respondFail, respond]
  | decEnd =>
    refine ⟨fun d => match d.st with
      | .error => ⟨d, ⟨d.ecode, d.einfo⟩, false⟩
      | .done => ⟨d, ⟨0, lengthWord d.out⟩, false⟩
      | .run => if d.mid then ⟨d.latch ⟨.malformedStream, d.bitcnt⟩, ⟨3, d.bitcnt⟩, false⟩
        else ⟨{ d with st := .done }, ⟨0, lengthWord d.out⟩, false⟩, fun s => ?_, fun x => ?_⟩
    case refine_2 =>
      dsimp only
      split
      · exact .ofRepeat
      · exact .ofSuccess (.inl rfl)
      · split
        · exact .ofRaise (c := 3) rfl (by decide)
        · exact .ofSuccess (.inl rfl)
    simp only [exec, execDecEnd]
    cases s.dec.st
    · cases s.dec.mid <;> simp [decRaise, respondFail, respondOk, respond, Cause.code]
    · simp [respondOk, respond]
    · simp [decRepeat, respondFail, respond]
  | _ => simp [Instr.isDecoder] at h

/-- A command of neither engine is `NOP`, `RESET` or `RDREG` (R63). -/
theorem system_command {i : Instr} (he : i.isEncoder = false) (hd : i.isDecoder = false) :
    i = .nop ∨ i = .reset ∨ ∃ r, i = .rdreg r := by
  cases i <;> simp_all [Instr.isEncoder, Instr.isDecoder]

/-- `RDREG` answers the register or is refused; it writes no engine (R48, R162). -/
theorem exec_rdreg (r : Byte) (s : State) :
    (∃ reg, register? r = some reg ∧ exec (.rdreg r) s = .next (respondOk (reg.value s) s)) ∨
    (register? r = none ∧ exec (.rdreg r) s = .next (illegal 0x02 s)) := by
  simp only [exec, execRdreg]
  cases h : register? r with
  | none => exact .inr ⟨rfl, rfl⟩
  | some reg => exact .inl ⟨reg, rfl, rfl⟩

/-- Executing a concatenation is executing the first part, then the second. -/
theorem execAll_append {as : List Instr} {s t : State} (h : execAll as s = .next t) (bs : List Instr) :
    execAll (as ++ bs) s = execAll bs t := by
  induction as generalizing s with
  | nil => cases h; rfl
  | cons i rest ih =>
    simp only [execAll, List.cons_append] at h ⊢
    cases hi : exec i s with
    | next s' => rw [hi] at h; simp only at h ⊢; exact ih h
    | fault f => rw [hi] at h; cases h
    | refused r => rw [hi] at h; cases h

theorem execAll_cons {i : Instr} {s s' : State} (h : exec i s = .next s') (rest : List Instr) :
    execAll (i :: rest) s = execAll rest s' := by simp [execAll, h]

end Sys2Proof.Machine
end

