-- ==== Sys2Proof/Laws/Fetch.lean ====
section
/-! SUPPORT. What `fetch` says about lengths, and what `wholeCommandBytes` keeps: whole commands, up to the first incomplete
one. -/

namespace Sys2Proof

theorem Format.one_le_length {f : Format} {bytes : List Byte} {n : Nat} (h : f.length? bytes = some n) : 1 ≤ n := by
  cases f <;> simp only [Format.length?, Option.some.injEq, Option.map_eq_some_iff] at h <;> try omega

/-- The length of a command depends on no byte beyond it. -/
theorem Format.length?_take {f : Format} {bytes : List Byte} {n : Nat} (h : f.length? bytes = some n) :
    f.length? (bytes.take n) = some n := by
  cases f with
  | CT =>
    simp only [Format.length?, Option.map_eq_some_iff] at h ⊢
    obtain ⟨len, hlen, rfl⟩ := h
    exact ⟨len, by rw [List.getElem?_take, if_pos (by omega), hlen], rfl⟩
  | _ => simpa [Format.length?] using h

/-- A verdict other than `incomplete` names at least one byte and at most those there are, and stands when only those are. -/
theorem fetch_whole {bytes : List Byte} (h : fetch bytes ≠ .incomplete) :
    1 ≤ (fetch bytes).length ∧ (fetch bytes).length ≤ bytes.length ∧
    fetch (headCommandBytes bytes) ≠ .incomplete ∧
    (fetch (headCommandBytes bytes)).length = (headCommandBytes bytes).length := by
  match bytes, h with
  | op :: bs, h =>
    unfold headCommandBytes
    unfold fetch at h
    simp only at h
    cases hr : opcodeRow? op with
    | none => simp [fetch, hr, Verdict.length]
    | some row =>
      cases hl : row.format.length? (op :: bs) with
      | none => simp [hr, hl] at h
      | some n =>
        have h1 := Format.one_le_length hl
        have ht := Format.length?_take hl
        obtain ⟨m, rfl⟩ : ∃ m, n = m + 1 := ⟨n - 1, by omega⟩
        simp only [hr, hl] at h
        have hn : ¬ (op :: bs).length < m + 1 := fun hc => h (if_pos hc)
        have hf : fetch (op :: bs) = .command (row.read (op :: bs)) (m + 1) := by
          simp only [fetch, hr, hl, if_neg hn]
        simp only [List.length_cons, Nat.not_lt] at hn
        have hm : (bs.take m).length = m := by simp; omega
        rw [List.take_succ_cons] at ht
        have hf' : fetch (op :: bs.take m) = .command (row.read (op :: bs.take m)) (m + 1) := by
          simp only [fetch, hr, ht, List.length_cons, hm, Nat.lt_irrefl, if_false]
        simp only [hf, Verdict.length, List.take_succ_cons, hf', List.length_cons, hm]
        exact ⟨h1, hn, by simp, trivial⟩

/-- A partly received command alone is discarded whole. -/
theorem leadingCommandBytes_incomplete (fuel : Nat) {bytes : List Byte} (h : fetch bytes = .incomplete) :
    leadingCommandBytes fuel bytes = [] := by
  induction fuel with
  | zero => rfl
  | succ fuel ih => simpa [leadingCommandBytes, headCommandBytes, h, Verdict.length] using ih

/-- The bytes kept are whole commands, one after another, and the rest begins with an incomplete one. -/
theorem leadingCommandBytes_spec (fuel : Nat) (bytes : List Byte) (hf : bytes.length ≤ fuel) :
    ∃ (parts : List (List Byte)) (tail : List Byte), bytes = parts.flatten ++ tail ∧
      leadingCommandBytes fuel bytes = parts.flatten ∧ fetch tail = .incomplete ∧
      ∀ p ∈ parts, fetch p ≠ .incomplete ∧ (fetch p).length = p.length := by
  induction fuel generalizing bytes with
  | zero =>
    obtain rfl := List.eq_nil_of_length_eq_zero (Nat.le_zero.mp hf)
    exact ⟨[], [], rfl, rfl, rfl, by simp⟩
  | succ fuel ih =>
    by_cases hi : fetch bytes = .incomplete
    · exact ⟨[], bytes, rfl, leadingCommandBytes_incomplete _ hi, hi, by simp⟩
    · obtain ⟨h1, h2, h3, h4⟩ := fetch_whole hi
      obtain ⟨parts, tail, hb, hk, ht, hp⟩ := ih (bytes.drop (fetch bytes).length) (by simp; omega)
      refine ⟨headCommandBytes bytes :: parts, tail, ?_, ?_, ht, ?_⟩
      · rw [List.flatten_cons, List.append_assoc, ← hb, headCommandBytes, List.take_append_drop]
      · simp [leadingCommandBytes, hk]
      · exact List.forall_mem_cons.mpr ⟨⟨h3, h4⟩, hp⟩

theorem wholeCommandBytes_spec (bytes : List Byte) :
    ∃ (parts : List (List Byte)) (tail : List Byte), bytes = parts.flatten ++ tail ∧
      wholeCommandBytes bytes = parts.flatten ∧ fetch tail = .incomplete ∧
      ∀ p ∈ parts, fetch p ≠ .incomplete ∧ (fetch p).length = p.length :=
  leadingCommandBytes_spec _ _ (Nat.le_refl _)

/-- `decode` is incomplete exactly where `fetch` is: operand values do not matter to that (R74, R75). -/
theorem decode_eq_incomplete_iff (bytes : List Byte) : decode bytes = .incomplete ↔ fetch bytes = .incomplete := by
  unfold decode
  cases fetch bytes with
  | command i n => simp only; split <;> simp
  | illegal op n => simp
  | incomplete => simp

theorem wholeCommandBytes_incomplete {bytes : List Byte} (h : fetch bytes = .incomplete) : wholeCommandBytes bytes = [] :=
  leadingCommandBytes_incomplete _ h

end Sys2Proof
end

