-- ==== Sys2Proof/Laws/Runs.lean ====
section
/-! SUPPORT. What runs of one kind of command do: `DEC_BIT`s (feeding bits), `ENC_SYM`s (pushing code words), steps. -/

namespace Sys2Proof.Machine

/-- One step of a run. -/
theorem run_succ (M : Host.Core) {n : Nat} {x y : M.State} (h : M.step x = .next y) : M.run (n + 1) x = M.run n y := by
  simp only [Host.Core.run, h]

/-- No command looks at the bytes waiting on the command port, and none touches them or the reset input. -/
theorem exec_cmdIn (i : Instr) (s : State) : ∃ t : State, t.resetIn = s.resetIn ∧
    ∀ c, exec i { s with cmdIn := c } = .next { t with cmdIn := c } := by
  cases he : i.isEncoder with
  | true =>
    obtain ⟨f, hf, -⟩ := exec_encoder he
    exact ⟨{ s with
      cmderr := s.cmderr || (f s.enc).refused, enc := (f s.enc).engine, responses := s.responses ++ [(f s.enc).response] },
      rfl, fun c => hf _⟩
  | false =>
    cases hd : i.isDecoder with
    | true =>
      obtain ⟨f, hf, -⟩ := exec_decoder hd
      exact ⟨{ s with
        cmderr := s.cmderr || (f s.dec).refused, dec := (f s.dec).engine, responses := s.responses ++ [(f s.dec).response] },
        rfl, fun c => hf _⟩
    | false =>
      rcases system_command he hd with rfl | rfl | ⟨r, rfl⟩
      · exact ⟨respondOk 0 s, rfl, fun c => rfl⟩
      · exact ⟨respondOk 0 (resetBlock s), rfl, fun c => rfl⟩
      · simp only [exec, execRdreg]
        cases register? r with
        | none => exact ⟨illegal 2 s, rfl, fun c => rfl⟩
        | some reg => exact ⟨respondOk (reg.value s) s, rfl, fun c => by cases reg <;> rfl⟩

/-- In `ERROR` a run of `DEC_BIT`s repeats the latched error (R181). -/
theorem execAll_decBits_error (w : Bits) (s : State) (hs : s.dec.st = .error) :
    execAll (w.map fun b => .decBit (if b then 1 else 0)) s =
      .next { s with responses := s.responses ++ List.replicate w.length ⟨s.dec.ecode, s.dec.einfo⟩ } := by
  induction w generalizing s with
  | nil => simp [execAll]
  | cons c rest ih =>
    have : exec (.decBit (if c then 1 else 0)) s = .next (decRepeat s) := by
      simp only [exec, execDecBit, bitOperand?_ofBool, hs]
    rw [List.map_cons, execAll_cons this, ih (decRepeat s) (by simpa using hs)]
    simp [decRepeat, respondFail, respond, List.replicate_succ]

/-- In `RUN` a run of `DEC_BIT`s feeds the bits; the first failing response is the error raised, if any (R137). -/
theorem execAll_decBits (w : Bits) (s : State) (hs : s.dec.st = .run) :
    ∃ rs : List Response, execAll (w.map fun b => .decBit (if b then 1 else 0)) s = .next { s with
      dec := match (s.dec.feed w).2 with | none => (s.dec.feed w).1 | some r => (s.dec.feed w).1.latch r
      responses := s.responses ++ rs } ∧ rs.length = w.length ∧
      rs.find? (fun r => r.code != 0) = (s.dec.feed w).2.map fun r => ⟨r.cause.code, r.info⟩ := by
  induction w generalizing s with
  | nil => exact ⟨[], by simp [execAll, Dec.feed], rfl, rfl⟩
  | cons b rest ih =>
    have hb : exec (.decBit (if b then 1 else 0)) s = .next (decConsume [b] s) := by
      simp only [exec, execDecBit, bitOperand?_ofBool, hs]
    rw [List.map_cons, execAll_cons hb]
    cases hd : s.dec.decStep b with
    | ok d =>
      have h1 : decConsume [b] s = { s with dec := d, responses := s.responses ++ [⟨0, 0⟩] } := by
        rw [decConsume_effect, Dec.feed_cons_ok _ hd]; rfl
      obtain ⟨rs, h2, h3, h4⟩ := ih (decConsume [b] s) (by rw [h1]; show d.st = _; rw [(Dec.decStep_frame hd).2.2.1, hs])
      rw [h1] at h2 h4
      refine ⟨⟨0, 0⟩ :: rs, ?_, by simp [h3], ?_⟩
      · rw [h1, h2, Dec.feed_cons_ok _ hd]; simp
      · rw [Dec.feed_cons_ok _ hd]; simpa using h4
    | error r =>
      have h1 : decConsume [b] s =
          { s with dec := s.dec.latch r, responses := s.responses ++ [⟨r.cause.code, r.info⟩] } := by
        rw [decConsume_effect, Dec.feed_cons_error _ hd]
      refine ⟨⟨r.cause.code, r.info⟩ :: List.replicate rest.length ⟨r.cause.code, r.info⟩, ?_, by simp, ?_⟩
      · rw [execAll_decBits_error _ _ (by rw [h1]; rfl), h1, Dec.feed_cons_error _ hd]; simp
      · rw [Dec.feed_cons_error _ hd]
        have : (r.cause.code != 0#8) = true := by cases r.cause <;> decide
        simp [this]

/-- In `ERROR` a run of `DEC_BYTE`s with legal operands repeats the latched error (R181). -/
theorem execAll_decBytes_error (L : List (Byte × Byte)) (hL : ∀ p ∈ L, 1 ≤ p.2.toNat ∧ p.2.toNat ≤ 8) (s : State)
    (hs : s.dec.st = .error) : ∃ rs, execAll (L.map fun p => .decByte p.1 p.2) s = .next { s with
      responses := s.responses ++ rs } := by
  induction L generalizing s with
  | nil => exact ⟨[], by simp [execAll]⟩
  | cons p rest ih =>
    have hp := hL p (by simp)
    have : exec (.decByte p.1 p.2) s = .next (decRepeat s) := by
      simp only [exec, execDecByte, streamBits?_legal hp.1 hp.2, hs]
    obtain ⟨rs, h⟩ := ih (fun q hq => hL q (by simp [hq])) (decRepeat s) (by simpa using hs)
    refine ⟨⟨s.dec.ecode, s.dec.einfo⟩ :: rs, ?_⟩
    rw [List.map_cons, execAll_cons this, h]
    simp [decRepeat, respondFail, respond]

/-- In `RUN` a run of `DEC_BYTE`s with legal operands feeds the concatenation of their stream bits (R138). -/
theorem execAll_decBytes (L : List (Byte × Byte)) (hL : ∀ p ∈ L, 1 ≤ p.2.toNat ∧ p.2.toNat ≤ 8) (s : State)
    (hs : s.dec.st = .run) (w : Bits) (hw : w = L.flatMap fun p => topBits p.1 p.2.toNat) :
    ∃ rs, execAll (L.map fun p => .decByte p.1 p.2) s = .next { s with
      dec := match (s.dec.feed w).2 with | none => (s.dec.feed w).1 | some r => (s.dec.feed w).1.latch r
      responses := s.responses ++ rs } := by
  induction L generalizing s w with
  | nil => subst hw; exact ⟨[], by simp [execAll, Dec.feed]⟩
  | cons p rest ih =>
    have hp := hL p (by simp)
    have hrest : ∀ q ∈ rest, 1 ≤ q.2.toNat ∧ q.2.toNat ≤ 8 := fun q hq => hL q (by simp [hq])
    have h1 : exec (.decByte p.1 p.2) s = .next (decConsume (topBits p.1 p.2.toNat) s) := by
      simp only [exec, execDecByte, streamBits?_legal hp.1 hp.2, hs]
    rw [List.map_cons, execAll_cons h1, decConsume_effect]
    subst hw
    rw [List.flatMap_cons, Dec.feed_append]
    have hst := (Dec.feed_frame (topBits p.1 p.2.toNat) s.dec).2.2.1
    rcases hf : s.dec.feed (topBits p.1 p.2.toNat) with ⟨d, _ | r⟩
    · rw [hf] at hst
      obtain ⟨rs, h2⟩ := ih hrest { s with dec := d, responses := s.responses ++ [⟨0, 0⟩] } (by simpa using hst.trans hs) _ rfl
      exact ⟨⟨0, 0⟩ :: rs, by simpa using h2⟩
    · obtain ⟨rs, h2⟩ := execAll_decBytes_error rest hrest
        { s with dec := d.latch r, responses := s.responses ++ [⟨r.cause.code, r.info⟩] } rfl
      exact ⟨⟨r.cause.code, r.info⟩ :: rs, by simpa using h2⟩

/-- `DEC_STREAM` of packed bytes is a run of legal `DEC_BYTE`s whose stream bits are the packed bits (R81). -/
theorem decStream_packBits (w : Bits) : ∃ L : List (Byte × Byte),
    decStream (packBits w) w.length = (L.map fun p => Instr.decByte p.1 p.2) ∧
    (∀ p ∈ L, 1 ≤ p.2.toNat ∧ p.2.toNat ≤ 8) ∧ w = L.flatMap fun p => topBits p.1 p.2.toNat := by
  have chunk : ∀ (k n : Nat), n ≤ 8 → 8 * k + n ≤ w.length →
      topBits ((packBits w).getD k 0) n = (w.drop (8 * k)).take n := by
    intro k n hn hk
    apply List.ext_getElem?
    intro t
    by_cases ht : t < n
    · have h := getLsbD_packBits w (8 * k + t)
      have e1 : (8 * k + t) / 8 = k := by omega
      have e2 : (8 * k + t) % 8 = t := by omega
      rw [e1, e2] at h
      rw [List.getElem?_take_of_lt ht, List.getElem?_drop]
      simp only [topBits, List.getElem?_map, List.getElem?_range ht, Option.map_some, h]
      have : 8 * k + t < w.length := by omega
      simp [List.getD, this]
    · rw [List.getElem?_eq_none (by simp; omega), List.getElem?_eq_none (by simp; omega)]
  have full : ∀ m, 8 * m ≤ w.length →
      (List.range m).flatMap (fun k => topBits ((packBits w).getD k 0) 8) = w.take (8 * m) := by
    intro m
    induction m with
    | zero => intro _; simp
    | succ m ih =>
      intro hm
      rw [List.range_succ, List.flatMap_append, ih (by omega)]
      simp only [List.flatMap_cons, List.flatMap_nil, List.append_nil]
      rw [chunk m 8 (by omega) (by omega), Nat.mul_succ, List.take_add]
  have h8 : (8 : Byte).toNat = 8 := rfl
  have hdm : 8 * (w.length / 8) + w.length % 8 = w.length := Nat.div_add_mod _ _
  by_cases h0 : w.length % 8 = 0
  · refine ⟨(List.range (w.length / 8)).map fun k => ((packBits w).getD k 0, 8), ?_, ?_, ?_⟩
    · simp [decStream, h0]
    · intro p hp
      obtain ⟨k, _, rfl⟩ := List.mem_map.1 hp
      simp
    · simp only [List.flatMap_map, h8]
      rw [full _ (by omega), List.take_of_length_le (by omega)]
  · have hn : (BitVec.ofNat 8 (w.length % 8)).toNat = w.length % 8 := by
      rw [BitVec.toNat_ofNat]; exact Nat.mod_eq_of_lt (by omega)
    refine ⟨((List.range (w.length / 8)).map fun k => ((packBits w).getD k 0, 8)) ++
      [((packBits w).getD (w.length / 8) 0, BitVec.ofNat 8 (w.length % 8))], ?_, ?_, ?_⟩
    · simp [decStream, h0]
    · intro p hp
      rcases List.mem_append.1 hp with hp | hp
      · obtain ⟨k, _, rfl⟩ := List.mem_map.1 hp
        simp
      · simp only [List.mem_singleton] at hp
        subst hp
        simp only [hn]; omega
    · rw [List.flatMap_append, List.flatMap_map]
      simp only [h8, List.flatMap_cons, List.flatMap_nil, List.append_nil, hn]
      rw [full _ (by omega), chunk _ _ (by omega) (by omega)]
      conv_lhs => rw [← List.take_append_drop (8 * (w.length / 8)) w]
      congr 1
      rw [List.take_of_length_le (by simp; omega)]

/-- `DEC_END` in `RUN` between two symbols. -/
theorem exec_decEnd_run {s : State} (hs : s.dec.st = .run) (hm : s.dec.mid = false) :
    exec .decEnd s = .next (respondOk (lengthWord s.dec.out) { s with dec := { s.dec with st := .done } }) := by
  simp [exec, execDecEnd, hs, hm]

/-- `DEC_END` in `RUN` in the middle of a code word. -/
theorem exec_decEnd_mid {s : State} (hs : s.dec.st = .run) (hm : s.dec.mid = true) :
    exec .decEnd s = .next (decRaise ⟨.malformedStream, s.dec.bitcnt⟩ s) := by
  simp [exec, execDecEnd, hs, hm]

theorem exec_decEnd_error {s : State} (hs : s.dec.st = .error) : exec .decEnd s = .next (decRepeat s) := by
  simp [exec, execDecEnd, hs]

/-- `ENC_SYM` of a symbol with a code word, within the counter's limit (R114). -/
theorem exec_encSym_open {sym : Byte} {s : State} {e : CodeEntry} (hs : s.enc.st = .streamOpen)
    (hr : s.enc.ct.read sym.toNat = some e) (hl : s.enc.bitlen.toNat + e.code.length ≤ Config.maxCount) :
    exec (.encSym sym) s = .next (respondOk (s.enc.pushBits e.code).bitlen { s with enc := s.enc.pushBits e.code }) := by
  have h : ¬ s.enc.bitlen.toNat + e.len > Config.maxCount := Nat.not_lt.2 hl
  simp only [exec, execEncSym, hs, hr, h, if_false]

/-- A run of `ENC_SYM`s over symbols that all have a code word pushes the concatenation of the code words (R114, R116). -/
theorem execAll_encSyms (S : List Byte) (s : State) (hs : s.enc.st = .streamOpen) (W : Bits)
    (hS : ∀ x ∈ S, (s.enc.ct.read x.toNat).isSome = true)
    (hW : W = S.flatMap fun x => ((s.enc.ct.read x.toNat).map CodeEntry.code).getD [])
    (hl : s.enc.bitlen.toNat + W.length ≤ Config.maxCount) :
    ∃ rs, execAll (S.map .encSym) s = .next { s with enc := s.enc.pushBits W, responses := s.responses ++ rs } := by
  induction S generalizing s W with
  | nil => subst hW; exact ⟨[], by simp [execAll, Enc.pushBits]⟩
  | cons x rest ih =>
    obtain ⟨e, he⟩ := Option.isSome_iff_exists.1 (hS x (by simp))
    rw [List.flatMap_cons, he] at hW
    simp only [Option.map_some, Option.getD_some] at hW
    subst hW
    simp only [List.length_append] at hl
    have h1 := exec_encSym_open hs he (by omega)
    have hb := Enc.pushBits_bitlen e.code s.enc (by omega)
    rw [List.map_cons, execAll_cons h1]
    obtain ⟨rs, h2⟩ := ih (respondOk (s.enc.pushBits e.code).bitlen { s with enc := s.enc.pushBits e.code })
      (by simp [hs]) _ (fun y hy => by simpa using hS y (by simp [hy])) rfl (by simp only [respondOk_enc, Enc.pushBits_ct]; omega)
    refine ⟨⟨0, (s.enc.pushBits e.code).bitlen⟩ :: rs, ?_⟩
    rw [h2]
    simp [Enc.pushBits_append, respondOk, respond]

/-- A run of `ENC_SYM`s in `ERROR` repeats the latched error (R181). -/
theorem execAll_encSyms_error (S : List Byte) (s : State) (hs : s.enc.st = .error) :
    execAll (S.map .encSym) s =
      .next { s with responses := s.responses ++ List.replicate S.length ⟨s.enc.ecode, s.enc.einfo⟩ } := by
  induction S generalizing s with
  | nil => simp [execAll]
  | cons c rest ih =>
    have : exec (.encSym c) s = .next (encRepeat s) := by simp only [exec, execEncSym, hs]
    rw [List.map_cons, execAll_cons this, ih (encRepeat s) (by simpa using hs)]
    simp [encRepeat, respondFail, respond, List.replicate_succ]

end Sys2Proof.Machine
end

