-- ==== Sys2Proof/Laws/Loading.lean ====
section
/-! SUPPORT. What loading does: a run of `CT_SET`s, a run of node writes, and the pre-order listing of a tree
(spec/40_host_construction.md R99, R100). -/

namespace Sys2Proof.Machine

/-! ### Code table -/

/-- `CT_SET` of an assembled code word (R112). -/
theorem exec_ctSetOf {sym : Byte} {w : Bits} (h1 : 1 ≤ w.length) (h2 : w.length ≤ 255) (s : State) :
    exec (.ctSetOf sym w) s = .next (respondOk 0 { s with enc := { s.enc with ct := s.enc.ct.write sym.toNat ⟨w⟩ } }) := by
  simp only [exec, Instr.ctSetOf, execCtSet, codeWord?_packBits h1 h2]

/-- A run of `CT_SET`s for distinct symbols leaves each its code word and every other entry alone. -/
theorem execAll_ctSets (L : List Byte) (C : CodeTable) (hC : ∀ p ∈ C, 1 ≤ p.2.length ∧ p.2.length ≤ 255) (s : State) :
    ∃ (ct : Table CodeEntry) (rs : List Response),
      execAll (L.filterMap fun sym => (codeOf C sym).map (Instr.ctSetOf sym)) s =
        .next { s with enc := { s.enc with ct := ct }, responses := s.responses ++ rs } ∧
      ∀ k : Nat, ct.read k = if ∃ sym ∈ L, sym.toNat = k ∧ codeOf C sym ≠ none then
        (codeOf C (BitVec.ofNat 8 k)).map CodeEntry.mk else s.enc.ct.read k := by
  induction L generalizing s with
  | nil => exact ⟨s.enc.ct, [], by simp [execAll], by simp⟩
  | cons x rest ih =>
    have hx : BitVec.ofNat 8 x.toNat = x := by simp
    cases hc : codeOf C x with
    | none =>
      obtain ⟨ct, rs, h1, h2⟩ := ih s
      refine ⟨ct, rs, by simpa [hc] using h1, fun k => ?_⟩
      rw [h2 k]
      congr 1
      simp [hc]
    | some w =>
      have hw : 1 ≤ w.length ∧ w.length ≤ 255 := by
        unfold codeOf at hc
        obtain ⟨p, hp, rfl⟩ := Option.map_eq_some_iff.1 hc
        exact hC p (List.mem_of_find?_eq_some hp)
      obtain ⟨ct, rs, h1, h2⟩ := ih (respondOk 0 { s with enc := { s.enc with ct := s.enc.ct.write x.toNat ⟨w⟩ } })
      refine ⟨ct, ⟨0, 0⟩ :: rs, ?_, fun k => ?_⟩
      · simp only [List.filterMap_cons, hc, Option.map_some]
        rw [execAll_cons (exec_ctSetOf hw.1 hw.2 s), h1]
        simp [respondOk, respond]
      · rw [h2 k]
        by_cases hk : k = x.toNat
        · subst hk
          rw [hx, hc]
          simp [Table.read_write_same, hc]
        · have : (∃ sym ∈ x :: rest, sym.toNat = k ∧ codeOf C sym ≠ none) ↔
              (∃ sym ∈ rest, sym.toNat = k ∧ codeOf C sym ≠ none) := by
            simp only [List.mem_cons, exists_eq_or_imp]
            exact ⟨fun h => h.elim (fun h => absurd h.1.symm hk) id, .inr⟩
          simp only [this]
          simp [Table.read_write_other _ _ hk]

/-! ### Tree -/

/-- The tree-memory entry a listed node stands for. -/
def NodeListing.node : NodeListing → Node
  | .L sym => .leaf sym
  | .I left right => .internal (BitVec.ofNat 9 left) (BitVec.ofNat 9 right)

/-- Both children of a listed node are legal indices. -/
def NodeListing.legal : NodeListing → Prop
  | .L _ => True
  | .I left right => left ≤ 510 ∧ right ≤ 510

theorem treeIndex?_ofNat {k : Nat} (h : k ≤ 510) : treeIndex? (BitVec.ofNat 16 k) = some (BitVec.ofNat 9 k) := by
  have h16 : (BitVec.ofNat 16 k).toNat = k := by rw [BitVec.toNat_ofNat]; exact Nat.mod_eq_of_lt (by omega)
  have := treeIndex?_legal (field := BitVec.ofNat 16 k) (by omega)
  rw [this.1]
  congr 1
  apply BitVec.eq_of_toNat_eq
  rw [this.2, h16, BitVec.toNat_ofNat]
  exact (Nat.mod_eq_of_lt (by omega)).symm

theorem toNat_ofNat_idx {k : Nat} (h : k ≤ 510) : (BitVec.ofNat 9 k).toNat = k := by
  rw [BitVec.toNat_ofNat]; exact Nat.mod_eq_of_lt (by omega)

/-- One node write of a listing (R132, R133). -/
theorem exec_nodeWrite {e : NodeListing} {k : Nat} (hk : k ≤ 510) (he : e.legal) (s : State) :
    exec (e.command k) s = .next (respondOk 0 { s with dec := { s.dec with tree := s.dec.tree.write k e.node } }) := by
  cases e with
  | L sym => simp only [NodeListing.command, NodeListing.node, exec, execTreeLeaf, treeIndex?_ofNat hk, toNat_ofNat_idx hk]
  | I l r =>
    simp only [NodeListing.command, NodeListing.node, exec, execTreeInt, treeIndex?_ofNat hk, treeIndex?_ofNat he.1,
      treeIndex?_ofNat he.2, toNat_ofNat_idx hk]

/-- A run of node writes leaves the listed nodes at consecutive indices and every other entry alone. -/
theorem execAll_nodeWrites (L : List NodeListing) (base : Nat) (hb : base + L.length ≤ 511) (hL : ∀ e ∈ L, e.legal)
    (s : State) : ∃ (tree : Table Node) (rs : List Response),
      execAll (nodeWrites L base) s = .next { s with dec := { s.dec with tree := tree }, responses := s.responses ++ rs } ∧
      (∀ j, j < L.length → tree.read (base + j) = L[j]?.map NodeListing.node) ∧
      ∀ k, k < base ∨ base + L.length ≤ k → tree.read k = s.dec.tree.read k := by
  induction L generalizing base s with
  | nil => exact ⟨s.dec.tree, [], by simp [nodeWrites, execAll], by simp, fun _ _ => rfl⟩
  | cons e rest ih =>
    simp only [List.length_cons] at hb
    have h1 := exec_nodeWrite (k := base) (by omega) (hL e (by simp)) s
    obtain ⟨tree, rs, h2, h3, h4⟩ := ih (base + 1) (by omega) (fun x hx => hL x (by simp [hx]))
      (respondOk 0 { s with dec := { s.dec with tree := s.dec.tree.write base e.node } })
    refine ⟨tree, ⟨0, 0⟩ :: rs, ?_, ?_, ?_⟩
    · rw [nodeWrites, execAll_cons h1, h2]; simp [respondOk, respond]
    · intro j hj
      cases j with
      | zero => rw [h4 _ (by omega)]; simp [Table.read_write_same]
      | succ j =>
        simp only [List.length_cons] at hj
        have := h3 j (by omega)
        rw [show base + (j + 1) = base + 1 + j by omega, this]; simp
    · intro k hk
      simp only [List.length_cons] at hk
      rw [h4 k (by omega)]
      exact Table.read_write_other _ _ (by omega)

@[simp] theorem length_preorder (t : HuffmanNode) (base : Nat) : (preorder t base).length = t.size := by
  induction t generalizing base with
  | leaf => rfl
  | internal w l r ihl ihr => simp [preorder, HuffmanNode.size, ihl, ihr]; omega

theorem HuffmanNode.size_pos (t : HuffmanNode) : 1 ≤ t.size := by
  cases t
  · exact Nat.le_refl _
  · simp only [HuffmanNode.size]; omega

theorem preorder_legal (t : HuffmanNode) (base : Nat) (h : base + t.size ≤ 511) : ∀ e ∈ preorder t base, e.legal := by
  induction t generalizing base with
  | leaf => simp [preorder, NodeListing.legal]
  | internal w l r ihl ihr =>
    have hl := l.size_pos
    have hr := r.size_pos
    simp only [HuffmanNode.size] at h
    intro e he
    simp only [preorder, List.mem_cons, List.mem_append] at he
    rcases he with rfl | he | he
    · exact ⟨by omega, by omega⟩
    · exact ihl _ (by omega) e he
    · exact ihr _ (by omega) e he

/-- A memory that lists the pre-order nodes of a tree from an index holds the tree there (R100). -/
theorem holdsTree_of_preorder (t : HuffmanNode) (base : Nat) (tree : Table Node) (h : base + t.size ≤ 511)
    (ht : ∀ j, j < t.size → tree.read (base + j) = (preorder t base)[j]?.map NodeListing.node) :
    tree.holdsTree t base := by
  induction t generalizing base with
  | leaf s w => have := ht 0 (by simp [HuffmanNode.size]); simpa [preorder, NodeListing.node, Table.holdsTree] using this
  | internal w l r ihl ihr =>
    have hl := l.size_pos
    have hr := r.size_pos
    simp only [HuffmanNode.size] at h ht
    have h0 := ht 0 (by omega)
    simp only [preorder, Nat.add_zero, List.getElem?_cons_zero, Option.map_some, NodeListing.node] at h0
    refine ⟨_, _, h0, ?_, ?_⟩
    · rw [toNat_ofNat_idx (by omega)]
      refine ihl _ (by omega) fun j hj => ?_
      have := ht (j + 1) (by omega)
      rw [show base + (j + 1) = base + 1 + j by omega] at this
      simp only [preorder, List.getElem?_cons_succ] at this
      rw [this, List.getElem?_append_left (by simpa using hj)]
    · rw [toNat_ofNat_idx (by omega)]
      refine ihr _ (by omega) fun j hj => ?_
      have := ht (l.size + j + 1) (by omega)
      rw [show base + (l.size + j + 1) = base + 1 + l.size + j by omega] at this
      simp only [preorder, List.getElem?_cons_succ] at this
      rw [this, List.getElem?_append_right (by simp)]
      simp

end Sys2Proof.Machine
end

