-- ==== Sys2Proof/Laws/PerInstr.lean ====
section
/-! SUPPORT. One lemma per command: its bytes are those of its row of the opcode map (spec/30_encoding.md R61, R63). -/

namespace Sys2Proof.Laws.Encoding

open Sys2Proof

/-- The row of the command's opcode reads the command back from its bytes and gives their number as the command's length. -/
def Statement (i : Instr) : Prop :=
  i.wellFormed = true → ∃ row, opcodeRow? i.opcode = some row ∧ row.read (encode i) = i ∧
    row.format.length? (encode i) = some (encode i).length

theorem nop : Statement .nop := fun _ => ⟨_, rfl, rfl, rfl⟩
theorem reset : Statement .reset := fun _ => ⟨_, rfl, rfl, rfl⟩
theorem rdreg (r : Byte) : Statement (.rdreg r) := fun _ => ⟨_, rfl, rfl, rfl⟩
theorem encInit : Statement .encInit := fun _ => ⟨_, rfl, rfl, rfl⟩
theorem ctClear : Statement .ctClear := fun _ => ⟨_, rfl, rfl, rfl⟩
theorem ctSet (sym len : Byte) (codebytes : List Byte) : Statement (.ctSet sym len codebytes) := by
  intro h
  have hl : codebytes.length = ceilDiv8 len.toNat := by
    simp only [Instr.wellFormed, Bool.and_eq_true, beq_iff_eq] at h; exact h.1.2
  refine ⟨_, rfl, ?_, ?_⟩
  · simp [encode, Instr.operandBytes, ← hl]
  · simp [encode, Instr.operandBytes, Format.length?, hl]; omega
theorem encSym (sym : Byte) : Statement (.encSym sym) := fun _ => ⟨_, rfl, rfl, rfl⟩
theorem encFlush : Statement .encFlush := fun _ => ⟨_, rfl, rfl, rfl⟩
theorem decInit : Statement .decInit := fun _ => ⟨_, rfl, rfl, rfl⟩
theorem treeClear : Statement .treeClear := fun _ => ⟨_, rfl, rfl, rfl⟩
theorem treeLeaf (idx : BitVec 16) (sym : Byte) : Statement (.treeLeaf idx sym) :=
  fun _ => ⟨_, rfl, by simp [encode, Instr.operandBytes, field16], rfl⟩
theorem treeInt (idx left right : BitVec 16) : Statement (.treeInt idx left right) :=
  fun _ => ⟨_, rfl, by simp [encode, Instr.operandBytes, field16], rfl⟩
theorem treeRoot (idx : BitVec 16) : Statement (.treeRoot idx) :=
  fun _ => ⟨_, rfl, by simp [encode, Instr.operandBytes, field16], rfl⟩
theorem decBit (a : Byte) : Statement (.decBit a) := fun _ => ⟨_, rfl, rfl, rfl⟩
theorem decByte (v n : Byte) : Statement (.decByte v n) := fun _ => ⟨_, rfl, rfl, rfl⟩
theorem decEnd : Statement .decEnd := fun _ => ⟨_, rfl, rfl, rfl⟩

end Sys2Proof.Laws.Encoding
end

