-- ==== Sys2Proof/Laws/Queue.lean ====
section
/-! SUPPORT. The host's priority queue and merge loop: extraction removes one triple and keeps the others, merging keeps the symbols
and the total weight (spec/40_host_construction.md R92, R96). -/

namespace Sys2Proof.Machine

theorem takeLeast_eq_none_iff {α : Type} (l : List (QueueItem α)) : takeLeast l = none ↔ l = [] := by
  cases l with
  | nil => simp [takeLeast]
  | cons x rest =>
    unfold takeLeast
    cases takeLeast rest with
    | none => simp
    | some p => simp only []; split <;> simp

/-- The least triple and the others are the triples of the list. -/
theorem takeLeast_perm {α : Type} {l : List (QueueItem α)} {m : QueueItem α} {o : List (QueueItem α)}
    (h : takeLeast l = some (m, o)) : (m :: o).Perm l := by
  induction l generalizing m o with
  | nil => simp [takeLeast] at h
  | cons x rest ih =>
    unfold takeLeast at h
    cases hr : takeLeast rest with
    | none =>
      rw [hr] at h
      simp only [Option.some.injEq, Prod.mk.injEq] at h
      rw [(takeLeast_eq_none_iff rest).1 hr, ← h.1, ← h.2]
    | some p =>
      rw [hr] at h
      simp only at h
      have hp := ih (m := p.1) (o := p.2) hr
      split at h
      · simp only [Option.some.injEq, Prod.mk.injEq] at h
        rw [← h.1, ← h.2]; exact hp.cons x
      · simp only [Option.some.injEq, Prod.mk.injEq] at h
        rw [← h.1, ← h.2]; exact (List.Perm.swap _ _ _).trans (hp.cons x)

/-- `extractMin` of a queue that is not empty removes one triple. -/
theorem PriorityQueue.extractMin_some {α : Type} {q : PriorityQueue α} (h : q.items ≠ []) :
    ∃ m q', q.extractMin = some (m.item, q') ∧ (m :: q'.items).Perm q.items := by
  cases ht : takeLeast q.items with
  | none => exact absurd ((takeLeast_eq_none_iff _).1 ht) h
  | some p => exact ⟨p.1, ⟨p.2, q.inserts⟩, by simp [extractMin, ht], takeLeast_perm ht⟩

theorem PriorityQueue.extractMin_empty {α : Type} {q : PriorityQueue α} (h : q.items = []) : q.extractMin = none := by
  simp [extractMin, h, takeLeast]

/-- The symbols, total weight and weight rule of the trees held by a queue. -/
def forestSymbols (items : List (QueueItem HuffmanNode)) : List Byte := items.flatMap fun x => x.item.symbols

def forestWeight (items : List (QueueItem HuffmanNode)) : Nat := (items.map fun x => x.item.weight).sum

theorem forestSymbols_perm {as bs : List (QueueItem HuffmanNode)} (h : as.Perm bs) :
    (forestSymbols as).Perm (forestSymbols bs) := h.flatMap_right _

theorem forestWeight_perm {as bs : List (QueueItem HuffmanNode)} (h : as.Perm bs) : forestWeight as = forestWeight bs :=
  (h.map _).sum_eq

/-- The merge loop, given fuel enough, leaves one tree: all symbols, the total weight, every weight a sum (R96). -/
theorem mergeLoop_spec (fuel : Nat) (q : PriorityQueue HuffmanNode) (hne : q.items ≠ [])
    (hf : q.items.length ≤ fuel + 1) (hw : ∀ x ∈ q.items, x.item.weightsAreSums) :
    ∃ m, (mergeLoop fuel q).items = [m] ∧ m.item.symbols.Perm (forestSymbols q.items) ∧
      m.item.weight = forestWeight q.items ∧ m.item.weightsAreSums := by
  induction fuel generalizing q with
  | zero =>
    obtain ⟨m, hm⟩ : ∃ m, q.items = [m] := by
      match hq : q.items, hne, hf with
      | [m], _, _ => exact ⟨m, rfl⟩
    refine ⟨m, by simp [mergeLoop, hm], by simp [hm, forestSymbols], by simp [hm, forestWeight], hw m (by simp [hm])⟩
  | succ fuel ih =>
    obtain ⟨m₁, q₁, h1, p1⟩ := PriorityQueue.extractMin_some hne
    by_cases h2 : q₁.items = []
    · have hm : q.items = [m₁] := by
        rw [h2] at p1
        exact List.perm_singleton.1 p1.symm
      refine ⟨m₁, ?_, by simp [hm, forestSymbols], by simp [hm, forestWeight], hw m₁ (by simp [hm])⟩
      simp [mergeLoop, h1, PriorityQueue.extractMin_empty h2, hm]
    · obtain ⟨m₂, q₂, h3, p2⟩ := PriorityQueue.extractMin_some h2
      have p : (m₁ :: m₂ :: q₂.items).Perm q.items := (p2.cons m₁).trans p1
      have hstep : mergeLoop (fuel + 1) q =
          mergeLoop fuel (q₂.insert (mergeNodes m₁.item m₂.item) (mergeNodes m₁.item m₂.item).weight) := by
        simp [mergeLoop, h1, h3]
      have hlen := p.length_eq
      simp only [List.length_cons] at hlen
      obtain ⟨m, e1, e2, e3, e4⟩ := ih (q₂.insert (mergeNodes m₁.item m₂.item) (mergeNodes m₁.item m₂.item).weight)
        (by simp [PriorityQueue.insert]) (by simp only [PriorityQueue.insert, List.length_cons]; omega) (by
          intro x hx
          simp only [PriorityQueue.insert, List.mem_cons] at hx
          rcases hx with rfl | hx
          · exact ⟨rfl, hw _ (p.subset (by simp)), hw _ (p.subset (by simp))⟩
          · exact hw _ (p.subset (by simp [hx])))
      refine ⟨m, by rw [hstep, e1], e2.trans ?_, e3.trans ?_, e4⟩
      · refine List.Perm.trans ?_ (forestSymbols_perm p)
        simp [PriorityQueue.insert, forestSymbols, mergeNodes, HuffmanNode.symbols]
      · rw [← forestWeight_perm p]
        simp [PriorityQueue.insert, forestWeight, mergeNodes, HuffmanNode.weight]; omega

/-- The queue the merges start from holds one Leaf per symbol, keyed by its count. -/
theorem leafQueue_items (f : FrequencyTable) (syms : List Byte) :
    (leafQueue f syms).items.length = syms.length ∧ (forestSymbols (leafQueue f syms).items).Perm syms ∧
      forestWeight (leafQueue f syms).items = (syms.map f).sum ∧
      ∀ x ∈ (leafQueue f syms).items, x.item.weightsAreSums := by
  have key : ∀ (syms : List Byte) (q : PriorityQueue HuffmanNode), (∀ x ∈ q.items, x.item.weightsAreSums) →
      let q' := syms.foldl (fun q sym => q.insert (.leaf sym (f sym)) (f sym)) q
      q'.items.length = syms.length + q.items.length ∧
      (forestSymbols q'.items).Perm (syms ++ forestSymbols q.items) ∧
      forestWeight q'.items = (syms.map f).sum + forestWeight q.items ∧ ∀ x ∈ q'.items, x.item.weightsAreSums := by
    intro syms
    induction syms with
    | nil => intro q hq; simpa using hq
    | cons s rest ih =>
      intro q hq
      obtain ⟨h1, h2, h3, h4⟩ := ih (q.insert (.leaf s (f s)) (f s)) (by
        intro x hx
        simp only [PriorityQueue.insert, List.mem_cons] at hx
        rcases hx with rfl | hx
        · trivial
        · exact hq x hx)
      simp only [List.foldl_cons]
      refine ⟨?_, ?_, ?_, h4⟩
      · rw [h1]; simp [PriorityQueue.insert]; omega
      · refine h2.trans ?_
        simp [PriorityQueue.insert, forestSymbols, HuffmanNode.symbols]
      · rw [h3]; simp [PriorityQueue.insert, forestWeight, HuffmanNode.weight]; omega
  obtain ⟨h1, h2, h3, h4⟩ := key syms (PriorityQueue.create syms.length) (by simp [PriorityQueue.create])
  unfold leafQueue
  exact ⟨by simpa [PriorityQueue.create] using h1, by simpa [PriorityQueue.create, forestSymbols] using h2,
    by simpa [PriorityQueue.create, forestWeight] using h3, h4⟩

/-- The participating symbols are those of count above 0, each once (R90). -/
theorem mem_participants (f : FrequencyTable) (s : Byte) : s ∈ participants f ↔ 0 < f s := by
  have : s ∈ allSymbols := by
    refine List.mem_map.2 ⟨s.toNat, List.mem_range.2 s.isLt, ?_⟩
    exact BitVec.eq_of_toNat_eq (by rw [BitVec.toNat_ofNat]; exact Nat.mod_eq_of_lt s.isLt)
  simp [participants, this]

theorem allSymbols_nodup : allSymbols.Nodup := by
  refine List.Nodup.map_on ?_ List.nodup_range
  intro a ha b hb h
  simp only [List.mem_range, Config.numSymbols] at ha hb
  have := congrArg BitVec.toNat h
  rw [BitVec.toNat_ofNat, BitVec.toNat_ofNat, Nat.mod_eq_of_lt (by omega), Nat.mod_eq_of_lt (by omega)] at this
  exact this

theorem participants_nodup (f : FrequencyTable) : (participants f).Nodup := allSymbols_nodup.filter _

theorem participants_length (f : FrequencyTable) : (participants f).length ≤ 256 := by
  have h := List.length_filter_le (fun sym => decide (0 < f sym)) allSymbols
  have : allSymbols.length = 256 := by simp [allSymbols, Config.numSymbols]
  rw [this] at h; exact h

end Sys2Proof.Machine
end

