-- ==== Sys2Proof/Laws/Trees.lean ====
section
/-! SUPPORT. Trees and their code words: shape of a tree, the paths of `walk`, and what feeding a code word or a
proper prefix of one does to a decoder that holds the tree (spec/40_host_construction.md R96, R98; spec/42_decoder.md
R140). -/

namespace Sys2Proof.Machine

/-! ### Shape -/

theorem HuffmanNode.symbols_length_pos (t : HuffmanNode) : 1 ≤ t.symbols.length := by
  induction t with
  | leaf => simp [symbols]
  | internal w l r ihl ihr => simp only [symbols, List.length_append]; omega

/-- A full binary tree has one Internal node less than leaves. -/
theorem HuffmanNode.size_symbols (t : HuffmanNode) : t.size + 1 = 2 * t.symbols.length := by
  induction t with
  | leaf => rfl
  | internal w l r ihl ihr => simp only [symbols, size, List.length_append]; omega

theorem HuffmanNode.depth_symbols (t : HuffmanNode) : t.depth + 1 ≤ t.symbols.length := by
  induction t with
  | leaf => exact Nat.le_refl _
  | internal w l r ihl ihr =>
    have := l.symbols_length_pos
    have := r.symbols_length_pos
    simp only [symbols, depth, List.length_append]; omega

/-! ### Paths -/

/-- The prefix a walk starts with stands in front of every path. -/
theorem walk_prefix (t : HuffmanNode) (p : Bits) : walk t p = (walk t []).map fun e => (e.1, p ++ e.2) := by
  induction t generalizing p with
  | leaf => simp [walk]
  | internal w l r ihl ihr =>
    simp only [walk, List.nil_append, List.map_append]
    rw [ihl (p ++ [false]), ihr (p ++ [true]), ihl [false], ihr [true]]
    simp [List.map_map, Function.comp_def]

/-- A path of an Internal node starts with the bit of the child it goes through. -/
theorem mem_walk_internal {w : Nat} {l r : HuffmanNode} {e : Byte × Bits} (h : e ∈ walk (.internal w l r) []) :
    ∃ (b : Bool) (v : Bits), e.2 = b :: v ∧ (e.1, v) ∈ walk (if b then r else l) [] := by
  simp only [walk, List.nil_append, List.mem_append] at h
  rcases h with h | h
  · rw [walk_prefix] at h
    obtain ⟨a, ha, rfl⟩ := List.mem_map.1 h
    exact ⟨false, a.2, rfl, ha⟩
  · rw [walk_prefix] at h
    obtain ⟨a, ha, rfl⟩ := List.mem_map.1 h
    exact ⟨true, a.2, rfl, ha⟩

theorem mem_walk_of_child {w : Nat} {l r : HuffmanNode} {b : Bool} {sym : Byte} {v : Bits}
    (h : (sym, v) ∈ walk (if b then r else l) []) : (sym, b :: v) ∈ walk (.internal w l r) [] := by
  simp only [walk, List.nil_append, List.mem_append]
  cases b
  · left; rw [walk_prefix]; exact List.mem_map.2 ⟨_, h, rfl⟩
  · right; rw [walk_prefix]; exact List.mem_map.2 ⟨_, h, rfl⟩

/-- The walk meets each leaf once, left to right. -/
theorem walk_symbols (t : HuffmanNode) (p : Bits) : (walk t p).map Prod.fst = t.symbols := by
  induction t generalizing p with
  | leaf => rfl
  | internal w l r ihl ihr => simp [walk, HuffmanNode.symbols, ihl, ihr]

theorem walk_length {t : HuffmanNode} {e : Byte × Bits} (h : e ∈ walk t []) : e.2.length ≤ t.depth := by
  induction t generalizing e with
  | leaf => simp only [walk, List.mem_singleton] at h; subst h; simp [HuffmanNode.depth]
  | internal w l r ihl ihr =>
    obtain ⟨b, v, hv, hm⟩ := mem_walk_internal h
    rw [hv]
    cases b
    · have := ihl hm; simp only [List.length_cons, HuffmanNode.depth] at *; omega
    · have := ihr hm; simp only [List.length_cons, HuffmanNode.depth] at *; omega

/-- Any bit sequence begins with a code word or is a proper prefix of one. -/
theorem walk_covers (t : HuffmanNode) (W : Bits) :
    (∃ e ∈ walk t [], e.2 <+: W) ∨ (∃ e ∈ walk t [], W <+: e.2 ∧ W ≠ e.2) := by
  induction t generalizing W with
  | leaf s w => left; exact ⟨(s, []), by simp [walk], by simp⟩
  | internal w l r ihl ihr =>
    cases W with
    | nil =>
      right
      obtain ⟨e, he⟩ : ∃ e, e ∈ walk l [] := by
        have := l.symbols_length_pos
        rw [← walk_symbols l [], List.length_map] at this
        exact List.exists_mem_of_length_pos this
      exact ⟨(e.1, false :: e.2), mem_walk_of_child (b := false) he, by simp, by simp⟩
    | cons b V =>
      have ih : (∃ e ∈ walk (if b then r else l) [], e.2 <+: V) ∨
          (∃ e ∈ walk (if b then r else l) [], V <+: e.2 ∧ V ≠ e.2) := by
        cases b
        · exact ihl V
        · exact ihr V
      rcases ih with ⟨e, he, hp⟩ | ⟨e, he, hp, hne⟩
      · exact .inl ⟨(e.1, b :: e.2), mem_walk_of_child he, by simpa using hp⟩
      · exact .inr ⟨(e.1, b :: e.2), mem_walk_of_child he, by simpa using hp, by simpa using hne⟩

/-! ### Feeding code words -/

theorem Table.holdsTree_child {tree : Table Node} {w : Nat} {l r : HuffmanNode} {c : Nat}
    (h : tree.holdsTree (.internal w l r) c) :
    ∃ li ri : Idx, tree.read c = some (.internal li ri) ∧
      ∀ b : Bool, tree.holdsTree (if b then r else l) (if b then ri else li).toNat := by
  obtain ⟨li, ri, h1, h2, h3⟩ := h
  refine ⟨li, ri, h1, fun b => ?_⟩
  cases b
  · exact h2
  · exact h3

/-- A transition out of an Internal node whose child `b` is a leaf. -/
theorem Dec.decStep_toLeaf {d : Dec} {b : Bool} {li ri : Idx} {sym : Byte} (hb : d.bitcnt.toNat ≠ Config.maxCount)
    (hp : d.root.present = true) (hc : d.tree.read d.cur.toNat = some (.internal li ri))
    (hn : d.tree.read (if b then ri else li).toNat = some (.leaf sym)) : d.decStep b = .ok (d.emit sym) := by
  simp [Dec.decStep, hb, hp, hc, hn]

/-- A transition out of an Internal node whose child `b` is an Internal node. -/
theorem Dec.decStep_toInternal {d : Dec} {b : Bool} {li ri l' r' : Idx} (hb : d.bitcnt.toNat ≠ Config.maxCount)
    (hp : d.root.present = true) (hc : d.tree.read d.cur.toNat = some (.internal li ri))
    (hn : d.tree.read (if b then ri else li).toNat = some (.internal l' r')) :
    d.decStep b = .ok (d.descend (if b then ri else li)) := by
  simp [Dec.decStep, hb, hp, hc, hn]

theorem toNat_add_one {x : Word} (h : x.toNat + 1 < 2 ^ 64) : (x + 1).toNat = x.toNat + 1 := by
  rw [BitVec.toNat_add]; exact Nat.mod_eq_of_lt (by simpa using h)

/-- Feeding the path from an Internal node to a leaf emits that leaf's symbol and returns to the root (R140). -/
theorem Dec.feed_walk {t : HuffmanNode} {d : Dec} {e : Byte × Bits} (hh : d.tree.holdsTree t d.cur.toNat)
    (hp : d.root.present = true) (he : e ∈ walk t []) (hi : e.2 ≠ [])
    (hb : d.bitcnt.toNat + e.2.length < 2 ^ 64) :
    ∃ d' : Dec, d.feed e.2 = (d', none) ∧ d'.out = d.out ++ [e.1] ∧ d'.mid = false ∧ d'.root = d.root ∧
      d'.tree = d.tree ∧ d'.st = d.st ∧ d'.bitcnt.toNat = d.bitcnt.toNat + e.2.length := by
  obtain ⟨sym, path⟩ := e
  induction path generalizing t d with
  | nil => exact absurd rfl hi
  | cons b v ih =>
    cases t with
    | leaf s w => simp [walk] at he
    | internal w l r =>
      obtain ⟨b', v', hv, hm⟩ := mem_walk_internal he
      simp only [List.cons.injEq] at hv
      obtain ⟨rfl, rfl⟩ := hv
      obtain ⟨li, ri, hc, hch⟩ := Table.holdsTree_child hh
      have hmax : d.bitcnt.toNat ≠ Config.maxCount := by
        simp only [List.length_cons] at hb; unfold Config.maxCount; omega
      have hb1 : (d.bitcnt + 1).toNat = d.bitcnt.toNat + 1 := toNat_add_one (by simp only [List.length_cons] at hb; omega)
      have hchb := hch b
      cases hchild : (if b then r else l) with
      | leaf s' w' =>
        rw [hchild] at hchb hm
        simp only [walk, List.mem_singleton, Prod.mk.injEq] at hm
        obtain ⟨rfl, rfl⟩ := hm
        have hs := Dec.decStep_toLeaf hmax hp hc hchb
        refine ⟨d.emit sym, by rw [Dec.feed_cons_ok _ hs]; rfl, rfl, rfl, rfl, rfl, rfl, by simpa using hb1⟩
      | internal w' l' r' =>
        rw [hchild] at hchb hm
        obtain ⟨l'', r'', hn, _⟩ := Table.holdsTree_child hchb
        have hs := Dec.decStep_toInternal hmax hp hc hn
        have hvne : v ≠ [] := by
          obtain ⟨_, _, hv, _⟩ := mem_walk_internal hm
          simp only at hv; rw [hv]; simp
        obtain ⟨d', h1, h2, h3, h4, h5, h6, h7⟩ := ih (t := .internal w' l' r') (d := d.descend (if b then ri else li))
          hchb hp hm hvne (by simp only [Dec.descend_bitcnt, hb1, List.length_cons] at *; omega)
        refine ⟨d', by rw [Dec.feed_cons_ok _ hs, h1], h2, h3, h4, h5, h6, ?_⟩
        rw [h7, Dec.descend_bitcnt, hb1]; simp only [List.length_cons]; omega

/-- Feeding a proper prefix of such a path emits nothing and, unless empty, stops mid-path (R140). -/
theorem Dec.feed_walk_prefix {t : HuffmanNode} {d : Dec} {e : Byte × Bits} {p : Bits}
    (hh : d.tree.holdsTree t d.cur.toNat) (hp : d.root.present = true) (he : e ∈ walk t []) (hpre : p <+: e.2)
    (hne : p ≠ e.2) (hb : d.bitcnt.toNat + p.length < 2 ^ 64) :
    ∃ d' : Dec, d.feed p = (d', none) ∧ d'.out = d.out ∧ (p ≠ [] → d'.mid = true) ∧ d'.st = d.st ∧
      d'.bitcnt.toNat = d.bitcnt.toNat + p.length := by
  obtain ⟨sym, path⟩ := e
  induction p generalizing t d path with
  | nil => exact ⟨d, rfl, rfl, fun h => absurd rfl h, rfl, rfl⟩
  | cons b q ih =>
    cases t with
    | leaf s w =>
      simp only [walk, List.mem_singleton, Prod.mk.injEq] at he
      rw [he.2] at hpre
      simp at hpre
    | internal w l r =>
      obtain ⟨b', v, hv, hm⟩ := mem_walk_internal he
      simp only at hv
      subst hv
      simp only [List.cons_prefix_cons] at hpre
      obtain ⟨rfl, hq⟩ := hpre
      have hqne : q ≠ v := fun h => hne (by rw [h])
      obtain ⟨li, ri, hc, hch⟩ := Table.holdsTree_child hh
      have hmax : d.bitcnt.toNat ≠ Config.maxCount := by
        simp only [List.length_cons] at hb; unfold Config.maxCount; omega
      have hb1 : (d.bitcnt + 1).toNat = d.bitcnt.toNat + 1 := toNat_add_one (by simp only [List.length_cons] at hb; omega)
      have hchb := hch b
      cases hchild : (if b then r else l) with
      | leaf s' w' =>
        rw [hchild] at hm
        simp only [walk, List.mem_singleton, Prod.mk.injEq] at hm
        obtain ⟨_, rfl⟩ := hm
        exact absurd (List.prefix_nil.1 hq) hqne
      | internal w' l' r' =>
        rw [hchild] at hchb hm
        obtain ⟨l'', r'', hn, _⟩ := Table.holdsTree_child hchb
        have hs := Dec.decStep_toInternal hmax hp hc hn
        obtain ⟨d', h1, h2, h3, h4, h5⟩ := ih (t := .internal w' l' r') (d := d.descend (if b then ri else li)) 
          hchb hp (by simp only [Dec.descend_bitcnt, hb1, List.length_cons] at *; omega) v hm hq hqne
        refine ⟨d', by rw [Dec.feed_cons_ok _ hs, h1], h2, fun _ => ?_, h4, ?_⟩
        · by_cases hq0 : q = []
          · subst hq0; simp only [Dec.feed, Prod.mk.injEq, and_true] at h1; rw [← h1]; rfl
          · exact h3 hq0
        · rw [h5, Dec.descend_bitcnt, hb1]; simp only [List.length_cons]; omega

/-- Feeding a concatenation of code words emits their symbols and ends between two symbols (R140). -/
theorem Dec.feed_codeWords {t : HuffmanNode} {es : List (Byte × Bits)} {d : Dec}
    (hh : d.tree.holdsTree t d.root.idx.toNat) (hp : d.root.present = true) (hm : d.mid = false)
    (he : ∀ e ∈ es, e ∈ walk t []) (hne : ∀ e ∈ walk t [], e.2 ≠ [])
    (hb : d.bitcnt.toNat + (es.flatMap Prod.snd).length < 2 ^ 64) :
    ∃ d' : Dec, d.feed (es.flatMap Prod.snd) = (d', none) ∧ d'.out = d.out ++ es.map Prod.fst ∧ d'.mid = false ∧
      d'.root = d.root ∧ d'.tree = d.tree ∧ d'.st = d.st ∧
      d'.bitcnt.toNat = d.bitcnt.toNat + (es.flatMap Prod.snd).length := by
  induction es generalizing d with
  | nil => exact ⟨d, rfl, by simp, hm, rfl, rfl, rfl, rfl⟩
  | cons e rest ih =>
    have hcur : d.cur = d.root.idx := by simp [Dec.cur, hm]
    have hlen : (List.flatMap Prod.snd (e :: rest)).length = e.2.length + (rest.flatMap Prod.snd).length := by simp
    rw [hlen] at hb ⊢
    obtain ⟨d₁, h1, h2, h3, h4, h5, h6, h7⟩ := Dec.feed_walk (d := d) (e := e) (by rw [hcur]; exact hh) hp (he e (by simp))
      (hne e (he e (by simp))) (by omega)
    obtain ⟨d₂, g1, g2, g3, g4, g5, g6, g7⟩ := ih (d := d₁) (by rw [h4, h5]; exact hh) (by rw [h4]; exact hp) h3
      (fun x hx => he x (by simp [hx])) (by rw [h7]; omega)
    refine ⟨d₂, ?_, ?_, g3, g4.trans h4, g5.trans h5, g6.trans h6, by omega⟩
    · rw [List.flatMap_cons, Dec.feed_append, h1]; exact g1
    · rw [g2, h2]; simp

end Sys2Proof.Machine
end

