-- ==== Sys2Proof/Tests/Slice0.lean ====
section
/-! SUPPORT. The model's own tests: ill-formed terms refused, words decoded, one step of each command against the vectors of
spec/95_test_vectors.md, and for each obligation with hypotheses a state and operands that meet them. -/

namespace Sys2Proof.Tests

open Sys2Proof Sys2Proof.Machine

/-! ### Ill-formed terms, one per check of spec/30_encoding.md R74 -/

theorem test_illFormed_register : Instr.wellFormed (.rdreg 0x7F) = false ∧ Instr.wellFormed (.rdreg 0x01) = false := by decide
theorem test_illFormed_codeLength : Instr.wellFormed (.ctSet 0x61 0 []) = false := by decide
theorem test_illFormed_codeByteCount : Instr.wellFormed (.ctSet 0x61 9 [0xAA]) = false := by decide
theorem test_illFormed_padding : Instr.wellFormed (.ctSet 0x61 3 [0xB0]) = false := by decide
theorem test_illFormed_leafIndex : Instr.wellFormed (.treeLeaf 511 0x41) = false := by decide
theorem test_illFormed_intIndex : Instr.wellFormed (.treeInt 511 0 0) = false := by decide
theorem test_illFormed_intLeft : Instr.wellFormed (.treeInt 0 511 0) = false := by decide
theorem test_illFormed_intRight : Instr.wellFormed (.treeInt 0 0 0xFFFF) = false := by decide
theorem test_illFormed_rootIndex : Instr.wellFormed (.treeRoot 0xFFFF) = false := by decide
theorem test_illFormed_bit : Instr.wellFormed (.decBit 2) = false := by decide
theorem test_illFormed_bitCount : Instr.wellFormed (.decByte 0 0) = false ∧ Instr.wellFormed (.decByte 0 9) = false := by decide

/-! ### Words written out from spec/30_encoding.md R61 and R63 -/

theorem test_decode_nop : decode [0b00000000] = .command .nop 1 := by decide
theorem test_decode_reset : decode [0b00000001] = .command .reset 1 := by decide
theorem test_decode_rdreg : decode [0b00000010, 0b00100101] = .command (.rdreg 0x25) 2 := by decide
theorem test_decode_encInit : decode [0b00010000] = .command .encInit 1 := by decide
theorem test_decode_ctClear : decode [0b00010001] = .command .ctClear 1 := by decide
theorem test_decode_ctSet : decode [0b00010010, 0b00000000, 0b00001001, 0b10101010, 0b10000000, 0xFF] =
    .command (.ctSet 0 9 [0xAA, 0x80]) 5 := by decide
theorem test_decode_encSym : decode [0b00010011, 0b01100001] = .command (.encSym 0x61) 2 := by decide
theorem test_decode_encFlush : decode [0b00010100] = .command .encFlush 1 := by decide
theorem test_decode_decInit : decode [0b00100000] = .command .decInit 1 := by decide
theorem test_decode_treeClear : decode [0b00100001] = .command .treeClear 1 := by decide
theorem test_decode_treeLeaf : decode [0b00100010, 0b00000001, 0b11111110, 0b01000001] =
    .command (.treeLeaf 510 0x41) 4 := by decide
theorem test_decode_treeInt : decode [0b00100011, 0b00000001, 0b11111110, 0b00000001, 0b00000000, 0b00000001, 0b00101100] =
    .command (.treeInt 510 256 300) 7 := by decide
theorem test_decode_treeRoot : decode [0b00100100, 0b00000001, 0b00000010] = .command (.treeRoot 258) 3 := by decide
theorem test_decode_decBit : decode [0b00100101, 0b00000001] = .command (.decBit 1) 2 := by decide
theorem test_decode_decByte : decode [0b00100110, 0b01111000, 0b00000110] = .command (.decByte 0x78 6) 3 := by decide
theorem test_decode_decEnd : decode [0b00100111] = .command .decEnd 1 := by decide

/-- Vectors X5, X6, X7, X10, X13, X15, X16, X18, X20. -/
theorem test_decode_verdicts :
    decode (0x12 :: 0x00 :: 0xFF :: List.replicate 32 0xFE) = .command (.ctSet 0 255 (List.replicate 32 0xFE)) 35 ∧
    decode [0x12, 0x61, 0x00] = .illegal 0x12 3 ∧ decode [0x12, 0x61, 0x03, 0xB0] = .illegal 0x12 4 ∧
    decode [0x23, 0x00, 0x00, 0x01, 0xFF, 0x00, 0x00] = .illegal 0x23 7 ∧ decode [0x24, 0xFF, 0xFF] = .illegal 0x24 3 ∧
    decode [0x26, 0x00, 0x09] = .illegal 0x26 3 ∧ decode [0x1F] = .illegal 0x1F 1 ∧
    decode [0x12, 0x61, 0x09, 0xAA] = .incomplete ∧ decode [] = .incomplete ∧ decode [0xFF, 0x00] = .illegal 0xFF 1 := by
  decide

/-- The opcode table numbers the first byte as the low bits. -/
theorem test_tableWord : decodeTableWord 56 0x2C01_0001_FE01_23 = some (.treeInt 510 256 300) := by decide

/-- A loaded word is what the next step runs. -/
theorem test_withFetchWord : step (State.reset.withFetchWord 16 0x6113) = exec (.encSym 0x61) State.reset := by rfl

/-! ### One step of each command -/

/-- What a command leaves: the state after it. -/
def after (i : Instr) (s : State) : Option State :=
  match exec i s with
  | .next t => some t
  | .fault _ => none
  | .refused _ => none

def withEnc (e : Enc) : State := { State.reset with enc := e }
def withDec (d : Dec) : State := { State.reset with dec := d }

/-- The response of the command just executed. -/
def lastResponse (s : State) : Option (Nat × Nat) := s.responses.getLast?.map fun r => (r.code.toNat, r.info.toNat)

def treeB : Table Node := [(0, .internal 1 2), (1, .leaf 0x61), (2, .leaf 0x62)]
def decB : Dec := { Dec.reset with tree := treeB, root := ⟨true, 0⟩ }
/-- Tree A of the vectors: `"ana are mere"`. -/
def treeA : Table Node :=
  [(0, .internal 1 6), (1, .internal 2 5), (2, .internal 3 4), (3, .leaf 0x6D), (4, .leaf 0x6E), (5, .leaf 0x61),
   (6, .internal 7 8), (7, .leaf 0x65), (8, .internal 9 10), (9, .leaf 0x20), (10, .leaf 0x72)]
def decA : Dec := { Dec.reset with tree := treeA, root := ⟨true, 0⟩ }
def decS : Dec := { Dec.reset with tree := [(0, .leaf 0x61)], root := ⟨true, 0⟩ }
def encError : Enc := { Enc.reset with st := .error, ecode := 2, einfo := 0x61 }
def decError : Dec := { decA with st := .error, ecode := 3, einfo := 3, mid := true, node := 6, bitcnt := 3, out := [0x61] }
def encDone : Enc := { Enc.reset with st := .done, bitlen := 30, out := [0x4B, 0x9F, 0x61, 0x78] }
def decDone : Dec := { decA with st := .done, bitcnt := 2, out := [0x61] }
/-- Vector EN7's start. -/
def encMid : Enc := { Enc.reset with ct := [(0x6E, ⟨[false, false, true]⟩)], bitlen := 2, fill := 2, acc := 0x40 }
/-- Vector EN16's start, with the table of EN17. -/
def encFull : Enc :=
  { Enc.reset with ct := [(0x61, ⟨[false, true]⟩), (0x62, ⟨[true]⟩)], bitlen := 0xFFFFFFFFFFFFFFFE, fill := 6 }

/-- S1, S8. -/
theorem test_nop : (after .nop { withEnc encError with dec := decError }).map lastResponse = some (some (0, 0)) := by decide
/-- S3. -/
theorem test_reset : (after .reset { withEnc encError with dec := decError, cmderr := true }) =
    some { State.reset with responses := [⟨0, 0⟩] } := by decide
/-- S4, S5. -/
theorem test_rdreg : (after (.rdreg 0x24) (withDec { Dec.reset with root := ⟨true, 510⟩ })).map lastResponse = some (some (0, 0x81FE)) ∧
    (after (.rdreg 0x13) (withEnc { Enc.reset with fill := 7, acc := 0xDC })).map lastResponse = some (some (0, 0x7DC)) := by decide
/-- S6, S7. -/
theorem test_rdreg_status : (after (.rdreg 0x20) (withDec decError)).map lastResponse = some (some (0, 0x306)) ∧
    (after (.rdreg 0x7F) State.reset).map (fun t => (t.cmderr, lastResponse t)) = some (true, some (5, 2)) := by decide
/-- EN12. -/
theorem test_encInit : (after .encInit (withEnc { encError with ct := encMid.ct })).map (fun t => t.enc) =
    some { Enc.reset with ct := encMid.ct } := by decide
/-- EN19. -/
theorem test_ctClear : (after .ctClear (withEnc encMid)).map (fun t => t.enc) = some { encMid with ct := [] } := by decide
/-- EN2: an earlier entry is replaced whole. -/
theorem test_ctSet : (after (.ctSet 0x61 3 [0xE0]) (withEnc { Enc.reset with ct := [(0x61, ⟨[false]⟩)] })).map
    (fun t => t.enc.ct) = some [(0x61, ⟨[true, true, true]⟩)] := by decide
/-- EN4, at one byte: a set padding bit. -/
theorem test_ctSet_padding : (after (.ctSet 0 7 [0xFF]) State.reset).map (fun t => (t.enc.ct, t.cmderr, lastResponse t)) =
    some ([], true, some (5, 0x12)) := by decide
/-- EN7. -/
theorem test_encSym : (after (.encSym 0x6E) (withEnc encMid)).map
    (fun t => (t.enc, lastResponse t)) = some ({ encMid with bitlen := 5, fill := 5, acc := 0x48 }, some (0, 5)) := by decide
/-- EN9: a byte leaves in the middle of a code word. -/
theorem test_encSym_byte : (after (.encSym 0x65) (withEnc
    { Enc.reset with ct := [(0x65, ⟨[true, false]⟩)], bitlen := 15, fill := 7, acc := 0x9E, out := [0x4B] })).map
    (fun t => (t.enc.out, t.enc.fill, t.enc.acc, lastResponse t)) = some ([0x4B, 0x9F], 1, 0, some (0, 17)) := by decide
/-- The flush of program P2's stream. -/
theorem test_encFlush : (after .encFlush (withEnc
    { Enc.reset with bitlen := 30, fill := 6, acc := 0x78, out := [0x4B, 0x9F, 0x61] })).map (fun t => (t.enc, lastResponse t)) =
    some (encDone, some (0, 30)) := by decide
/-- EN15: nothing is appended at a byte boundary. -/
theorem test_encFlush_boundary : (after .encFlush (withEnc { Enc.reset with bitlen := 16, out := [0xAF, 0xF0] })).map
    (fun t => (t.enc.out, t.enc.st, lastResponse t)) = some ([0xAF, 0xF0], .done, some (0, 16)) := by decide
/-- DE22. -/
theorem test_decInit : (after .decInit (withDec decError)).map (fun t => t.dec) = some decA := by decide
/-- DE16: the tree is cleared in mid-stream. -/
theorem test_treeClear : (after .treeClear (withDec { decB with bitcnt := 1, out := [0x61] })).map (fun t => t.dec) =
    some { Dec.reset with bitcnt := 1, out := [0x61] } := by decide
/-- DE15: an internal entry is overwritten by a leaf. -/
theorem test_treeLeaf : (after (.treeLeaf 1 0x7A) (withDec { Dec.reset with tree := [(1, .internal 3 4)] })).map
    (fun t => t.dec.tree) = some [(1, .leaf 0x7A)] := by decide
/-- R133's example. -/
theorem test_treeInt : (after (.treeInt 0 1 6) State.reset).map (fun t => t.dec.tree) = some [(0, .internal 1 6)] := by decide
/-- DE23. -/
theorem test_treeRoot : (after (.treeRoot 5) (withDec { decA with mid := true, node := 6 })).map
    (fun t => (t.dec.root, t.dec.node, t.dec.mid)) = some (⟨true, 5⟩, 6, true) := by decide
/-- DE2. -/
theorem test_decBit : (after (.decBit 1) (withDec { decA with node := 1, mid := true, bitcnt := 1 })).map
    (fun t => (t.dec.out, t.dec.node, t.dec.mid, t.dec.bitcnt)) = some ([0x61], 0, false, 2) := by decide
/-- DE14. -/
theorem test_decBit_invalid : (after (.decBit 1) (withDec { Dec.reset with tree := [(0, .internal 1 2)], root := ⟨true, 0⟩ })).map
    (fun t => (t.dec.st, t.dec.mid, t.dec.bitcnt, lastResponse t)) = some (.error, false, 0, some (6, 2)) := by decide
/-- DE3. -/
theorem test_decByte : (after (.decByte 0x4B 8) (withDec decA)).map
    (fun t => (t.dec.out, t.dec.bitcnt, t.dec.node, t.dec.mid)) = some ([0x61, 0x6E, 0x61], 8, 6, true) := by decide
/-- DE17: the bits before the failing one keep their effect. -/
theorem test_decByte_fails : (after (.decByte 0x10 8) (withDec decS)).map
    (fun t => (t.dec.st, t.dec.out, t.dec.bitcnt, lastResponse t)) =
    some (.error, [0x61, 0x61, 0x61], 3, some (3, 3)) := by decide
/-- DE4. -/
theorem test_decEnd_mid : (after .decEnd (withDec { decA with mid := true, node := 6, bitcnt := 8 })).map
    (fun t => (t.dec.st, t.dec.ecode, t.dec.einfo, lastResponse t)) = some (.error, 3, 8, some (3, 8)) := by decide
/-- DE10. -/
theorem test_decEnd : (after .decEnd (withDec decA)).map (fun t => (t.dec.st, lastResponse t)) = some (.done, some (0, 0)) := by decide

/-! ### Witnesses: states and operands that meet the hypotheses of each obligation -/

theorem witness_registers : (0x00 : Byte) ∈ definedRegisters ∧ (0x25 : Byte) ∈ definedRegisters ∧
    (0x01 : Byte) ∉ definedRegisters ∧ (0x26 : Byte) ∉ definedRegisters ∧ encDone.out.length < 2 ^ 64 ∧
    decDone.out.length < 2 ^ 64 := by decide
theorem witness_ctSet_longest : (List.replicate 32 0xFE : List Byte).length = ceilDiv8 (255 : Byte).toNat ∧ (255 : Byte) ≠ 0 ∧
    ∀ j, j < 8 * ceilDiv8 (255 : Byte).toNat - (255 : Byte).toNat →
      ((List.replicate 32 0xFE : List Byte).getLastD 0).getLsbD j = false := by decide
theorem witness_ctSet_refused : ([] : List Byte).length = ceilDiv8 (0 : Byte).toNat ∧
    ([0xB0] : List Byte).length = ceilDiv8 (3 : Byte).toNat ∧ 4 < 8 * ceilDiv8 (3 : Byte).toNat - (3 : Byte).toNat ∧
    (([0xB0] : List Byte).getLastD 0).getLsbD 4 = true := by decide
theorem witness_pushBit : { encMid with fill := 6 }.fill ≠ 7 ∧ { encMid with fill := 7 }.fill = 7 := by decide
theorem witness_encSym_states : encError.st = .error ∧ encDone.st = .done ∧
    Enc.reset.st = .streamOpen ∧ Enc.reset.ct.read (0x61 : Byte).toNat = none := by decide
/-- EN16 and EN17: one bit too many, and the last bit that fits. -/
theorem witness_encSym_limit : encFull.st = .streamOpen ∧
    encFull.ct.read (0x61 : Byte).toNat = some ⟨[false, true]⟩ ∧
    encFull.bitlen.toNat + ([false, true] : Bits).length > 2 ^ 64 - 1 ∧
    encFull.ct.read (0x62 : Byte).toNat = some ⟨[true]⟩ ∧
    encFull.bitlen.toNat + ([true] : Bits).length ≤ 2 ^ 64 - 1 := by decide
theorem witness_encFlush_states : encError.st = .error ∧ encDone.st = .done ∧ encMid.st = .streamOpen := by decide
theorem witness_flushed : encMid.Inv ∧ encMid.st = .streamOpen :=
  ⟨⟨by decide, by simp [encMid, CodeEntry.inv, CodeEntry.len], by decide, by decide, by decide, by decide⟩, rfl⟩
theorem witness_treeIndex : (510 : BitVec 16).toNat ≤ 510 ∧ 510 < (511 : BitVec 16).toNat ∧ 510 < (0xFFFF : BitVec 16).toNat := by
  decide
/-- One decoder for each clause of `DecStep`. -/
theorem witness_decStep :
    { decB with bitcnt := 0xFFFFFFFFFFFFFFFF }.bitcnt.toNat = 2 ^ 64 - 1 ∧
    { decB with bitcnt := 0xFFFFFFFFFFFFFFFE }.bitcnt.toNat ≠ 2 ^ 64 - 1 ∧
    Dec.reset.root.present = false ∧ decB.root.present = true ∧
    { decB with tree := [] }.tree.read decB.root.idx.toNat = none ∧
    decS.tree.read decS.root.idx.toNat = some (.leaf 0x61) ∧ decS.mid = false ∧
    { decA with mid := true, node := 3 }.tree.read 3 = some (.leaf 0x6D) ∧
    decB.tree.read 0 = some (.internal 1 2) ∧ decB.tree.read (if true then 2 else 1) = some (.leaf 0x62) ∧
    decA.tree.read 0 = some (.internal 1 6) ∧ decA.tree.read (if true then 6 else 1) = some (.internal 7 8) ∧
    { decB with tree := [(0, .internal 1 2)] }.tree.read (if true then 2 else 1) = none := by decide
theorem witness_decBit : (2 : Byte).extractLsb' 1 7 ≠ 0 ∧ (1 : Byte).extractLsb' 1 7 = 0 ∧ decError.st = .error ∧
    decDone.st = .done ∧ decB.st = .run ∧ decB.decStep ((1 : Byte).getLsbD 0) = .ok (decB.emit 0x62) ∧
    decS.decStep ((1 : Byte).getLsbD 0) = .error ⟨.malformedStream, 0⟩ := by
  refine ⟨by decide, by decide, rfl, rfl, rfl, rfl, rfl⟩
theorem witness_decByte : (0 : Byte).toNat = 0 ∧ 8 < (9 : Byte).toNat ∧ 1 ≤ (1 : Byte).toNat ∧ (8 : Byte).toNat ≤ 8 ∧
    decError.st = .error ∧ decDone.st = .done ∧ decS.st = .run := by decide
/-- DE17 and DE18: the states `DecStep` passes through on the first three bits, and the fourth bit that raises. -/
def chainS (k : Nat) : Dec := { decS with bitcnt := BitVec.ofNat 64 k, out := List.replicate k 0x61 }
theorem witness_decByteSteps : chainS 0 = decS ∧ decS.st = .run ∧ 3 ≤ (8 : Byte).toNat ∧ 3 < (8 : Byte).toNat ∧
    3 = (3 : Byte).toNat ∧
    (∀ k, k < 3 → (chainS k).decStep ((0x10 : Byte).getLsbD (7 - k)) = .ok (chainS (k + 1))) ∧
    (chainS 3).decStep ((0x10 : Byte).getLsbD (7 - 3)) = .error ⟨.malformedStream, 3⟩ :=
  ⟨rfl, rfl, by decide, by decide, by decide, fun k hk => by interval_cases k <;> rfl, rfl⟩
/-- DE18: the low bits differ, the three read ones do not. -/
theorem witness_lowBits : ∀ k, k < (3 : Byte).toNat → (0x1F : Byte).getLsbD (7 - k) = (0x00 : Byte).getLsbD (7 - k) := by decide
theorem witness_decEnd : decError.st = .error ∧ decDone.st = .done ∧ decDone.out.length < 2 ^ 64 ∧ decA.out.length < 2 ^ 64 ∧ decA.st = .run ∧ decA.mid = false ∧
    { decA with mid := true }.st = .run ∧ { decA with mid := true }.mid = true := by decide
theorem witness_illegalOperand : Instr.wellFormed (.decByte 0 9) = false ∧ Instr.wellFormed (.ctSet 0x61 3 [0xB0]) = false ∧
    ∀ sym len codebytes, Instr.ctSet 0x61 3 [0xB0] = .ctSet sym len codebytes → codebytes.length = ceilDiv8 len.toNat :=
  ⟨by decide, by decide, fun _ _ _ h => by cases h; rfl⟩
theorem witness_codes : State.reset.CodesInv := ⟨by decide, by decide, by decide⟩
theorem witness_refused : State.reset.CodesInv ∧
    exec (.rdreg 0x7F) State.reset = .next (illegal 2 State.reset) ∧
    (illegal 2 State.reset).responses = State.reset.responses ++ [⟨5, 2⟩] := ⟨witness_codes, rfl, by decide⟩
/-- A set `CMDERR` and a command that is not `RESET`. -/
theorem witness_sticky : { State.reset with cmderr := true }.cmderr = true ∧ Instr.nop ≠ .reset ∧
    exec .nop { State.reset with cmderr := true } = .next (respondOk 0 { State.reset with cmderr := true }) :=
  ⟨rfl, by decide, rfl⟩
/-- A table command. -/
theorem witness_notStream : Instr.wellFormed (.treeRoot 510) = true ∧ (∀ sym, Instr.treeRoot 510 ≠ .encSym sym) ∧
    Instr.treeRoot 510 ≠ .encFlush ∧ (∀ a, Instr.treeRoot 510 ≠ .decBit a) ∧ (∀ v n, Instr.treeRoot 510 ≠ .decByte v n) ∧
    Instr.treeRoot 510 ≠ .decEnd := by simp [Instr.wellFormed, legalIndex, Config.numNodes]
theorem witness_latched : Instr.wellFormed .encFlush = true ∧ encError.st = .error ∧
    Instr.wellFormed (.decByte 0 8) = true ∧ decError.st = .error := by decide
/-- Both engines leave `DONE`, the encoder by its init command, the decoder by the `RESET` command; and the reset input. -/
theorem witness_reopens :
    (∃ t, step { withEnc encDone with cmdIn := [0x10] } = .next t ∧ (withEnc encDone).enc.st ≠ .streamOpen ∧
      t.enc.st ≠ (withEnc encDone).enc.st) ∧
    (∃ t, step { withDec decDone with cmdIn := [0x01] } = .next t ∧ (withDec decDone).dec.st ≠ .run ∧
      t.dec.st ≠ (withDec decDone).dec.st) ∧
    (∃ t, step { withDec decError with resetIn := true } = .next t ∧ (withDec decError).dec.st ≠ .run ∧
      t.dec.st ≠ (withDec decError).dec.st) :=
  ⟨⟨_, rfl, by decide, by decide⟩, ⟨_, rfl, by decide, by decide⟩, ⟨_, rfl, by decide, by decide⟩⟩
theorem witness_codes_step : State.reset.CodesInv ∧ ∃ t, step { State.reset with cmdIn := [0xFF] } = .next t :=
  ⟨witness_codes, _, rfl⟩
theorem witness_engines : Instr.isEncoder (.encSym 0x61) = true ∧ (withEnc encMid).enc = { withEnc encMid with dec := decA }.enc ∧
    Instr.isDecoder .decEnd = true ∧ (withDec decA).dec = { withDec decA with enc := encMid }.dec ∧
    Instr.isEncoder .nop = false ∧ Instr.isDecoder .nop = false ∧ Instr.nop ≠ .reset ∧
    exec .nop State.reset = .next (respondOk 0 State.reset) := ⟨rfl, rfl, rfl, rfl, rfl, rfl, by decide, rfl⟩
theorem witness_step : State.reset.resetIn = false ∧ decode [0x13, 0x61, 0x14] = .command (.encSym 0x61) 2 ∧
    decode [0x24, 0xFF, 0xFF] = .illegal 0x24 3 ∧ decode [0x28] = .illegal 0x28 1 ∧
    decode [0x23, 0x00, 0x00, 0x00] = .incomplete ∧ (assertReset State.reset).resetIn = true := by decide
/-- A whole `NOP`, then `ENC_SYM` cut short (the byte 0x13 alone): reset keeps the first and discards the second (R200). -/
theorem test_hardwareReset_cutShort : (match step { State.reset with cmdIn := [0x00, 0x13], resetIn := true } with
    | .next t => some t.cmdIn
    | _ => none) = some [0x00] := by decide
theorem witness_ctSetTerm : ([0xFF, 0xFF] : List Byte).length ≠ ceilDiv8 (8 : Byte).toNat := by decide
theorem witness_commands : (∀ i ∈ [Instr.ctSetOf 0x61 [false], .encSym 0x61, .encFlush], i.wellFormed = true) ∧
    State.reset.resetIn = false := by decide
theorem witness_encoding : Instr.wellFormed (.ctSet 0 255 (List.replicate 32 0xFE)) = true ∧
    Instr.wellFormed (.treeInt 510 510 510) = true ∧
    34 < (encode (.ctSet 0 255 (List.replicate 32 0xFE))).length := by decide
theorem witness_undefined : (0xFF : Byte) ∉ ([0x00, 0x01, 0x02, 0x10, 0x11, 0x12, 0x13, 0x14, 0x20, 0x21, 0x22, 0x23, 0x24,
    0x25, 0x26, 0x27] : List Byte) ∧ { State.reset with cmdIn := [0xFF, 0x00] }.cmdIn = 0xFF :: [0x00] := by decide
theorem witness_inv : (withEnc encMid).Inv ∧ ∃ t, step { withEnc encMid with cmdIn := [0x14] } = .next t :=
  ⟨⟨witness_flushed.1, ⟨by decide, by simp [withEnc, State.reset, Dec.reset], by decide, by decide, by decide, by decide, by decide, by decide⟩⟩, _, rfl⟩
theorem witness_packs : (∀ x ∈ ([0x61, 0x62] : List Byte), (encFull.ct.read x.toNat).isSome = true) ∧
    ([0x61, 0x62] : List Byte).flatMap (fun x => ((encFull.ct.read x.toNat).map CodeEntry.code).getD []) =
      [false, true, true] ∧ ([false, true, true] : Bits).length < 2 ^ 64 := by decide
theorem witness_missing : (∀ y ∈ ([0x61] : List Byte), (encFull.ct.read y.toNat).isSome = true) ∧
    encFull.ct.read (0x63 : Byte).toNat = none ∧
    (([0x61] : List Byte).flatMap fun y => ((encFull.ct.read y.toNat).map CodeEntry.code).getD []).length < 2 ^ 64 := by decide
theorem witness_specialTrees : Dec.reset.root.present = false ∧ decS.root.present = true ∧
    decS.tree.read decS.root.idx.toNat = some (.leaf 0x61) ∧ ([false, true] : Bits).length < 2 ^ 64 := by decide
/-- Tree B, its words, and a word cut short. -/
theorem witness_ordinaryTree : decB.root.present = true ∧
    decB.tree.holdsTree (.internal 2 (.leaf 0x61 1) (.leaf 0x62 1)) decB.root.idx.toNat ∧
    decA.tree.holdsTree (.internal 7 (.leaf 0x65 3) (.internal 4 (.leaf 0x20 2) (.leaf 0x72 2))) 6 ∧
    (0x20, [true, false]) ∈ codes (some (.internal 7 (.leaf 0x65 3) (.internal 4 (.leaf 0x20 2) (.leaf 0x72 2)))) ∧
    ([true] : Bits) ≠ [] ∧ ([true] : Bits) <+: [true, false] ∧ ([true] : Bits) ≠ [true, false] :=
  ⟨rfl, ⟨1, 2, rfl, rfl, rfl⟩, ⟨7, 8, rfl, rfl, 9, 10, rfl, rfl, rfl⟩, by decide, by decide, by decide, by decide⟩
/-- `"ab"`, vector H4. -/
theorem witness_roundTrip : (codeStream (codes (buildTree (freq [0x61, 0x62]))) [0x61, 0x62]).length < 2 ^ 64 := by decide
theorem witness_extractMin : ((PriorityQueue.create 1).insert (HuffmanNode.leaf 0x61 1) 1).extractMin =
    some (.leaf 0x61 1, ⟨[], 1⟩) := by decide
theorem witness_participants : participants (freq []) = [] ∧ participants (freq [0x61]) = [0x61] ∧
    participants (freq [0x62, 0x61]) = [0x61, 0x62] := by decide
theorem witness_loadCT : ∀ p ∈ ([(0x61, [false]), (0x62, List.replicate 255 true)] : CodeTable),
    1 ≤ p.2.length ∧ p.2.length ≤ 255 := by
  simp only [List.forall_mem_cons, List.length_replicate]
  exact ⟨by decide, by omega, by simp⟩
theorem witness_loadTree : (HuffmanNode.internal 2 (.leaf 0x61 1) (.leaf 0x62 1)).size ≤ 511 := by decide

end Sys2Proof.Tests
end

section
/-! PROOFS. The family spec/10_state.md: `CMDERR` records refused commands and steers no command (R14); the two engines share
no state (R10). Both rest on `exec_encoder` and `exec_decoder`: a command of an engine is a function of that engine alone. -/

namespace Sys2Proof.Machine

/-! ### CMDERR (R14) -/

/-- Where no code 5 is latched, an effect is a refusal exactly when it answers code 5 (R178). -/
theorem EngineEffect.Ok.refused_eq {α : Type} {op : Byte} {ecode : α → Byte} {e : α} {x : EngineEffect α}
    (h : x.Ok op ecode e) (hc : ecode e ∈ producedCodes ∧ ecode e ≠ 5) : x.refused = (x.response.code == 5) := by
  cases hx : x.refused with
  | true => simp [h.refuse hx]
  | false => exact (beq_false_of_ne (h.answer hx hc).1.2).symm

/-- The command `i`, run on `s`, ends as `t` says, answers `r`, and treats `CMDERR` as R14 asks: whatever its value `c` before,
only `CMDERR` depends on it, and it is raised exactly by code 5. What `t` itself holds in `CMDERR` is of no account. -/
structure RecordsRefusal (i : Instr) (s t : State) (r : Response) : Prop where
  effect : ∀ c : Bool, exec i { s with cmderr := c } = .next { t with cmderr := c || r.code == 5 }
  answer : t.responses = s.responses ++ [r]

theorem RecordsRefusal.exec_eq {i : Instr} {s t : State} {r : Response} (h : RecordsRefusal i s t r) :
    exec i s = .next { t with cmderr := s.cmderr || r.code == 5 } := h.effect s.cmderr

theorem encoder_recordsRefusal {i : Instr} {s : State} (hi : i.isEncoder = true) (hs : s.CodesInv) :
    ∃ t r, RecordsRefusal i s t r := by
  obtain ⟨f, hf, hok⟩ := exec_encoder hi
  exact ⟨{ s with enc := (f s.enc).engine, responses := s.responses ++ [(f s.enc).response] }, (f s.enc).response,
    fun c => by rw [hf, (hok s.enc).refused_eq hs.enc], rfl⟩

theorem decoder_recordsRefusal {i : Instr} {s : State} (hi : i.isDecoder = true) (hs : s.CodesInv) :
    ∃ t r, RecordsRefusal i s t r := by
  obtain ⟨f, hf, hok⟩ := exec_decoder hi
  exact ⟨{ s with dec := (f s.dec).engine, responses := s.responses ++ [(f s.dec).response] }, (f s.dec).response,
    fun c => by rw [hf, (hok s.dec).refused_eq hs.dec], rfl⟩

/-- `NOP` answers `ok(0)` and leaves `CMDERR` as it was (R160). -/
theorem nop_recordsRefusal (s : State) : RecordsRefusal .nop s (respondOk 0 s) ⟨0, 0⟩ :=
  ⟨fun c => by simp [exec, execNop, respondOk, respond], rfl⟩

/-- What R14 says of one command, in the words of the obligation. -/
def CmderrClause (i : Instr) (s : State) : Prop :=
  ∃ (t : State) (r : Response), exec i s = .next t ∧ t.responses = s.responses ++ [r] ∧
    (i = .reset → t.cmderr = false) ∧
    (i ≠ .reset → (t.cmderr = true ↔ s.cmderr = true ∨ r.code = 5)) ∧
    ((∀ n, i ≠ .rdreg n) → ∀ c : Bool, ∃ c' : Bool,
      exec i { s with cmderr := c } = .next { t with cmderr := c' })

theorem RecordsRefusal.cmderrClause {i : Instr} {s t : State} {r : Response} (h : RecordsRefusal i s t r)
    (hi : i ≠ .reset) : CmderrClause i s :=
  ⟨_, r, h.exec_eq, h.answer, fun hr => absurd hr hi, fun _ => by simp, fun _ c => ⟨_, h.effect c⟩⟩

/-- `RESET` clears `CMDERR`, whatever it was (R161). -/
theorem reset_cmderrClause (s : State) : CmderrClause .reset s :=
  ⟨respondOk 0 (resetBlock s), ⟨0, 0⟩, rfl, rfl, fun _ => rfl, fun h => absurd rfl h, fun _ _ => ⟨false, rfl⟩⟩

/-- `RDREG` raises `CMDERR` exactly where the register number is refused (R162). -/
theorem rdreg_cmderrClause (n : Byte) (s : State) : CmderrClause (.rdreg n) s := by
  rcases exec_rdreg n s with ⟨reg, -, hx⟩ | ⟨-, hx⟩
  · exact ⟨_, ⟨0, reg.value s⟩, hx, rfl, nofun, fun _ => by simp, fun h => absurd rfl (h n)⟩
  · exact ⟨_, ⟨5, 0x02⟩, hx, rfl, nofun, fun _ => by simp, fun h => absurd rfl (h n)⟩

theorem cmderrClause_of_codesInv (i : Instr) {s : State} (hs : s.CodesInv) : CmderrClause i s := by
  by_cases he : i.isEncoder = true
  · obtain ⟨t, r, h⟩ := encoder_recordsRefusal he hs
    exact h.cmderrClause (by rintro rfl; cases he)
  by_cases hd : i.isDecoder = true
  · obtain ⟨t, r, h⟩ := decoder_recordsRefusal hd hs
    exact h.cmderrClause (by rintro rfl; cases hd)
  rcases system_command (by simpa using he) (by simpa using hd) with rfl | rfl | ⟨n, rfl⟩
  · exact (nop_recordsRefusal s).cmderrClause nofun
  · exact reset_cmderrClause s
  · exact rdreg_cmderrClause n s

/-- Settles O26: for the engines' commands because their effect is a function of the engine, which answers code 5 only when it
refuses; for `NOP`, `RESET` and `RDREG` one by one. -/
theorem cmderrRecordsRefusedCommandsOnly : Obligations.CmderrRecordsRefusedCommandsOnly :=
  ⟨rfl, fun i _ hs => cmderrClause_of_codesInv i hs⟩

/-! ### The engines (R10) -/

/-- An encoder command does the same to equal encoders, with the same response, and leaves the decoders alone. -/
theorem encoder_noninterference {i : Instr} {s s' : State} (hi : i.isEncoder = true) (hs : s.enc = s'.enc) :
    ∃ (t t' : State) (r : Response), exec i s = .next t ∧ exec i s' = .next t' ∧
      t.enc = t'.enc ∧ t.dec = s.dec ∧ t'.dec = s'.dec ∧
      t.responses = s.responses ++ [r] ∧ t'.responses = s'.responses ++ [r] := by
  obtain ⟨f, hf, -⟩ := exec_encoder hi
  exact ⟨_, _, (f s.enc).response, hf s, hf s', by simp [hs], rfl, rfl, rfl, by simp [hs]⟩

/-- A decoder command does the same to equal decoders, with the same response, and leaves the encoders alone. -/
theorem decoder_noninterference {i : Instr} {s s' : State} (hi : i.isDecoder = true) (hs : s.dec = s'.dec) :
    ∃ (t t' : State) (r : Response), exec i s = .next t ∧ exec i s' = .next t' ∧
      t.dec = t'.dec ∧ t.enc = s.enc ∧ t'.enc = s'.enc ∧
      t.responses = s.responses ++ [r] ∧ t'.responses = s'.responses ++ [r] := by
  obtain ⟨f, hf, -⟩ := exec_decoder hi
  exact ⟨_, _, (f s.dec).response, hf s, hf s', by simp [hs], rfl, rfl, rfl, by simp [hs]⟩

/-- `NOP` and `RDREG` write neither engine. -/
theorem system_command_engines {i : Instr} {s t : State} (he : i.isEncoder = false) (hd : i.isDecoder = false)
    (hr : i ≠ .reset) (hx : exec i s = .next t) : t.enc = s.enc ∧ t.dec = s.dec := by
  rcases system_command he hd with rfl | rfl | ⟨n, rfl⟩
  · cases hx; exact ⟨rfl, rfl⟩
  · exact absurd rfl hr
  · rcases exec_rdreg n s with ⟨reg, -, h⟩ | ⟨-, h⟩ <;> (rw [h] at hx; cases hx; exact ⟨rfl, rfl⟩)

/-- Settles O30: a command of an engine is a function of that engine. -/
theorem enginesShareNoState : Obligations.EnginesShareNoState :=
  ⟨fun _ _ _ => encoder_noninterference, fun _ _ _ => decoder_noninterference, fun _ _ _ => system_command_engines⟩

end Sys2Proof.Machine
end

section
/-! PROOFS. The family spec/20_memory.md: the packing and padding of a flushed stream (R42, R43). The bits are `Enc.flush_bits`;
the counts come from the invariant of R39, before the flush and after it. -/

namespace Sys2Proof.Machine

/-- Outside `DONE` the stream has as many bits as `BITLEN` says (R39 (d)). -/
theorem Enc.Inv.length_streamBits {e : Enc} (h : e.Inv) (hst : e.st ≠ .done) :
    e.streamBits.length = e.bitlen.toNat := by
  obtain ⟨hfill, hout⟩ := h.counts hst
  rw [e.length_streamBits, hfill, hout]
  exact Nat.div_add_mod _ 8

/-- The flush of an open stream leaves `ceil(BITLEN/8)` bytes (R39 (d), R43). -/
theorem Enc.Inv.length_flush_out {e : Enc} (h : e.Inv) (hst : e.st = .streamOpen) :
    e.flush.out.length = ceilDiv8 e.bitlen.toNat := by
  obtain ⟨-, -, hout⟩ := (h.flush hst).closed rfl
  exact hout

/-- `ENC_FLUSH` on an open stream flushes the encoder and answers `BITLEN` (R115). -/
theorem exec_encFlush_streamOpen {s : State} (hst : s.enc.st = .streamOpen) :
    exec .encFlush s = .next (respondOk s.enc.bitlen { s with enc := s.enc.flush }) := by
  simp [exec, execEncFlush, hst]

/-- Settles O12: the bits of the flushed bytes are the stream bits, then zeros, because the low bits of `ACC` are 0. -/
theorem flushedStreamIsPackedFromTheTopAndPaddedWithZeros :
    Obligations.FlushedStreamIsPackedFromTheTopAndPaddedWithZeros := by
  intro s hinv hst
  exact ⟨_, exec_encFlush_streamOpen hst, hinv.length_streamBits (by simp [hst]), rfl, hinv.length_flush_out hst,
    fun k _ => s.enc.flush_bits hinv.acc_low k⟩

end Sys2Proof.Machine
end

section
/-! PROOFS. The family spec/30_encoding.md: the operand conditions and what a command that breaks one does (R74), the
undefined opcodes (R73). The bytes of a command are read back whatever its operand values are, since only `wellFormed` looks at
these; a command with an illegal operand is refused because its operand form answers no value. -/

namespace Sys2Proof

/-! ### The bytes of a command are read back, legal or not -/

/-- A command of the wire: a `CT_SET` carries the `ceil(len/8)` code bytes of its format (R61). -/
def Instr.OnWire (i : Instr) : Prop :=
  ∀ sym len codebytes, i = .ctSet sym len codebytes → codebytes.length = ceilDiv8 len.toNat

/-- The row of the command's opcode reads the command from its bytes, whatever follows them, and gives their number. -/
def Instr.ReadBack (i : Instr) (rest : List Byte) : Prop :=
  ∃ row, opcodeRow? i.opcode = some row ∧ row.read (encode i ++ rest) = i ∧
    row.format.length? (encode i ++ rest) = some (encode i).length

theorem Instr.readBack_ctSet {sym len : Byte} {codebytes : List Byte} (hl : codebytes.length = ceilDiv8 len.toNat)
    (rest : List Byte) : (Instr.ctSet sym len codebytes).ReadBack rest := by
  refine ⟨_, rfl, ?_, ?_⟩
  · simp [encode, Instr.operandBytes, ← hl]
  · simp [encode, Instr.operandBytes, Format.length?, hl]; omega

theorem Instr.OnWire.readBack {i : Instr} (h : i.OnWire) (rest : List Byte) : i.ReadBack rest := by
  cases i with
  | ctSet sym len codebytes => exact readBack_ctSet (h _ _ _ rfl) rest
  | treeLeaf idx sym => exact ⟨_, rfl, by simp [encode, operandBytes, field16], rfl⟩
  | treeInt idx left right => exact ⟨_, rfl, by simp [encode, operandBytes, field16], rfl⟩
  | treeRoot idx => exact ⟨_, rfl, by simp [encode, operandBytes, field16], rfl⟩
  | _ => exact ⟨_, rfl, rfl, rfl⟩

/-- The bytes of a command of the wire are fetched as that command, at their full length (R60 to R63). -/
theorem Instr.OnWire.fetch_encode {i : Instr} (h : i.OnWire) (rest : List Byte) :
    fetch (encode i ++ rest) = .command i (encode i).length := by
  obtain ⟨row, hrow, hread, hlen⟩ := h.readBack rest
  have hlong : ¬ (encode i ++ rest).length < (encode i).length := by simp
  rw [show encode i ++ rest = i.opcode :: (i.operandBytes ++ rest) from rfl] at hread hlen hlong ⊢
  simp only [fetch, hrow, hlen, hread, if_neg hlong]

/-- A command of the wire with an illegal operand is an illegal command of its full length (R74). -/
theorem Instr.OnWire.decode_encode_illFormed {i : Instr} (h : i.OnWire) (hi : i.wellFormed = false) (rest : List Byte) :
    decode (encode i ++ rest) = .illegal i.opcode (encode i).length := by
  simp [decode, h.fetch_encode, hi]

/-! ### The opcodes outside the map -/

/-- An opcode byte has no row exactly when no row of the map carries it (R63, R73). -/
theorem opcodeRow?_eq_none_iff (op : Byte) : opcodeRow? op = none ↔ op ∉ opcodeRows.map OpcodeRow.opcode := by
  simp only [opcodeRow?, List.find?_eq_none, List.mem_map, beq_iff_eq, not_exists, not_and]

theorem fetch_undefined {op : Byte} (h : opcodeRow? op = none) (rest : List Byte) : fetch (op :: rest) = .illegal op 1 := by
  simp only [fetch, h]

theorem decode_undefined {op : Byte} (h : opcodeRow? op = none) (rest : List Byte) : decode (op :: rest) = .illegal op 1 := by
  simp only [decode, fetch_undefined h]

end Sys2Proof

namespace Sys2Proof.Machine

/-! ### The table of operand conditions (R74) -/

theorem wellFormed_rdreg_iff (r : Byte) : (Instr.rdreg r).wellFormed = true ↔ r ∈ definedRegisters :=
  List.contains_iff_mem

theorem wellFormed_ctSet_iff {sym len : Byte} {codebytes : List Byte} (hl : codebytes.length = ceilDiv8 len.toNat) :
    (Instr.ctSet sym len codebytes).wellFormed = true ↔ 1 ≤ len.toNat ∧ len.toNat ≤ 255 ∧
      ∀ j, j < 8 * ceilDiv8 len.toNat - len.toNat → (codebytes.getLastD 0).getLsbD j = false := by
  have hpos : len ≠ 0 ↔ 1 ≤ len.toNat ∧ len.toNat ≤ 255 := by
    constructor <;> intro h <;> bv_omega
  simp only [Instr.wellFormed, paddingIsZero, hl, Bool.and_eq_true, bne_iff_ne, beq_iff_eq, beq_self_eq_true, and_true,
    hpos, mod_two_pow_eq_zero_iff, and_assoc]

theorem wellFormed_decBit_iff (a : Byte) : (Instr.decBit a).wellFormed = true ↔ a.extractLsb' 1 7 = 0 :=
  decide_eq_true_iff.trans (reservedBits_zero_iff a).symm

theorem wellFormed_decByte_iff (v n : Byte) : (Instr.decByte v n).wellFormed = true ↔ 1 ≤ n.toNat ∧ n.toNat ≤ 8 := by
  simp only [Instr.wellFormed, Bool.and_eq_true, decide_eq_true_iff]

theorem wellFormed_treeInt_iff (idx left right : BitVec 16) : (Instr.treeInt idx left right).wellFormed = true ↔
    idx.toNat ≤ 510 ∧ left.toNat ≤ 510 ∧ right.toNat ≤ 510 := by
  simp only [Instr.wellFormed, Bool.and_eq_true, legalIndex_iff, and_assoc]

/-! ### A command with an illegal operand is refused in every state (R74, R178) -/

/-- An illegal wire index names no entry of the tree memory (R62, R74). -/
theorem treeIndex?_eq_none_of_illegal {idx : BitVec 16} (h : legalIndex idx = false) : treeIndex? idx = none :=
  treeIndex?_illegal (by have := mt (legalIndex_iff idx).2 (by simp [h]); omega)

theorem exec_treeInt_illFormed {idx left right : BitVec 16} (h : (Instr.treeInt idx left right).wellFormed = false)
    (s : State) : exec (.treeInt idx left right) s = .next (illegal 0x23 s) := by
  simp only [exec, execTreeInt]
  split
  next i l r hi hl hr =>
    have := (wellFormed_treeInt_iff idx left right).2 ⟨(treeIndex?_spec hi).1, (treeIndex?_spec hl).1, (treeIndex?_spec hr).1⟩
    simp [h] at this
  next => rfl

/-- Every meaning tests its operands before it looks at the engine's state. -/
theorem exec_illFormed {i : Instr} (h : i.wellFormed = false) (s : State) : exec i s = .next (illegal i.opcode s) := by
  cases i with
  | rdreg r =>
    have hr : register? r = none := (register?_eq_none_iff r).2 (mt (wellFormed_rdreg_iff r).2 (by simp [h]))
    simp only [exec, execRdreg, hr, Instr.opcode]
  | ctSet sym len codebytes =>
    have hc : codeWord? len codebytes = none := (codeWord?_eq_none_iff len codebytes).2 h
    simp only [exec, execCtSet, hc, Instr.opcode]
  | treeLeaf idx sym => simp only [exec, execTreeLeaf, treeIndex?_eq_none_of_illegal h, Instr.opcode]
  | treeInt idx left right => exact exec_treeInt_illFormed h s
  | treeRoot idx => simp only [exec, execTreeRoot, treeIndex?_eq_none_of_illegal h, Instr.opcode]
  | decBit a =>
    have ha : bitOperand? a = none := bitOperand?_illegal (mt (wellFormed_decBit_iff a).2 (by simp [h]))
    simp only [exec, execDecBit, ha, Instr.opcode]
  | decByte v n =>
    have hn : streamBits? v n = none :=
      streamBits?_illegal (by have := mt (wellFormed_decByte_iff v n).2 (by simp [h]); omega)
    simp only [exec, execDecByte, hn, Instr.opcode]
  | _ => simp [Instr.wellFormed] at h

/-- Settles O24: the wire bytes of a command are fetched as it whatever its operands are, and its meaning tests them first. -/
theorem illegalOperandIsRefusedInEveryState : Obligations.IllegalOperandIsRefusedInEveryState :=
  ⟨wellFormed_rdreg_iff, fun _ _ _ => wellFormed_ctSet_iff, wellFormed_decBit_iff, wellFormed_decByte_iff,
    fun idx _ => legalIndex_iff idx, wellFormed_treeInt_iff, legalIndex_iff, fun _ => rfl,
    fun _ rest hi hw => Instr.OnWire.decode_encode_illFormed hw hi rest, fun _ s hi _ => exec_illFormed hi s⟩

/-! ### An undefined opcode is a command of one byte (R73) -/

/-- The step consumes an undefined opcode alone and refuses it. -/
theorem step_undefined {s : State} {op : Byte} {rest : List Byte} (h : opcodeRow? op = none) (hr : s.resetIn = false)
    (hc : s.cmdIn = op :: rest) : step s = .next (illegal op { s with cmdIn := rest }) := by
  simp [step, hr, hc, fetch_undefined h, consume]

/-- Of the 256 bytes all but the sixteen opcodes decode as illegal commands of one byte. -/
theorem undefinedOpcodes_count :
    ((List.range 256).filter fun k => decide (decode [BitVec.ofNat 8 k] = .illegal (BitVec.ofNat 8 k) 1)).length = 240 := by
  decide +kernel

/-- Settles O41: an opcode outside the map has no row, so `fetch` reads no byte after it. -/
theorem undefinedOpcodeIsAOneByteIllegalCommand : Obligations.UndefinedOpcodeIsAOneByteIllegalCommand := by
  refine ⟨fun op rest hop => ?_, undefinedOpcodes_count⟩
  have h : opcodeRow? op = none := (opcodeRow?_eq_none_iff op).2 hop
  exact ⟨decode_undefined h rest, fun _ => step_undefined h⟩

end Sys2Proof.Machine
end

section
/-! PROOFS. The family spec/40_host_construction.md: the priority queue removes its least triple (R92), and no code word of a
tree begins another (R105). -/

namespace Sys2Proof.Machine

/-! ### The least triple of the queue (R92) -/

theorem QueueItem.before_iff {α : Type} (a b : QueueItem α) :
    a.before b = true ↔ a.priority < b.priority ∨ (a.priority = b.priority ∧ a.seq < b.seq) := by
  simp [QueueItem.before]

/-- Not preceding is transitive, since the order on (priority, seq) is total but for equal keys. -/
theorem QueueItem.not_before_trans {α : Type} {x y m : QueueItem α} (hx : ¬ x.before m = true) (hy : ¬ m.before y = true) :
    ¬ x.before y = true := by
  rw [QueueItem.before_iff] at *; omega

theorem QueueItem.before_asymm {α : Type} {a b : QueueItem α} (h : a.before b = true) : ¬ b.before a = true := by
  rw [QueueItem.before_iff] at *; omega

/-- None of the other triples precedes the least one. -/
theorem takeLeast_least {α : Type} {l o : List (QueueItem α)} {m : QueueItem α} (h : takeLeast l = some (m, o)) :
    ∀ x ∈ o, ¬ x.before m = true := by
  induction l generalizing m o with
  | nil => simp [takeLeast] at h
  | cons y rest ih =>
    cases hr : takeLeast rest with
    | none =>
      simp only [takeLeast, hr, Option.some.injEq, Prod.mk.injEq] at h
      simp [← h.2]
    | some p =>
      obtain ⟨n, others⟩ := p
      have hn : ∀ x ∈ others, ¬ x.before n = true := ih hr
      simp only [takeLeast, hr] at h
      split at h
      next hy =>
        obtain ⟨rfl, rfl⟩ : y = m ∧ n :: others = o := by simpa using h
        have hny := QueueItem.before_asymm hy
        exact List.forall_mem_cons.2 ⟨hny, fun x hx => QueueItem.not_before_trans (hn x hx) hny⟩
      next hy =>
        obtain ⟨rfl, rfl⟩ : n = m ∧ y :: others = o := by simpa using h
        exact List.forall_mem_cons.2 ⟨hy, hn⟩

/-- What `extractMin` returns is the item of the triple `takeLeast` finds; the other triples and the count of inserts stay. -/
theorem PriorityQueue.takeLeast_of_extractMin {α : Type} {q q' : PriorityQueue α} {a : α}
    (h : q.extractMin = some (a, q')) :
    ∃ m, takeLeast q.items = some (m, q'.items) ∧ m.item = a ∧ q'.inserts = q.inserts := by
  obtain ⟨⟨m, o⟩, hm, heq⟩ := Option.map_eq_some_iff.1 h
  cases heq
  exact ⟨m, hm, rfl, rfl⟩

theorem PriorityQueue.extractMin_eq_none_iff {α : Type} (q : PriorityQueue α) : q.extractMin = none ↔ q.items = [] := by
  rw [extractMin, Option.map_eq_none_iff, takeLeast_eq_none_iff]

/-- Settles O53: `takeLeast` splits the triples into one (`takeLeast_perm`) and others that do not precede it. -/
theorem extractMinRemovesTheLeastTriple : Obligations.ExtractMinRemovesTheLeastTriple := by
  refine ⟨fun _ => ⟨rfl, rfl⟩, fun q => ⟨fun _ _ => ⟨.refl _, rfl⟩, rfl, List.isEmpty_iff, q.extractMin_eq_none_iff, ?_⟩⟩
  intro a q' h
  obtain ⟨m, hm, ha, hq⟩ := PriorityQueue.takeLeast_of_extractMin h
  exact ⟨m, ha, takeLeast_perm hm, fun x hx => mt (QueueItem.before_iff x m).2 (takeLeast_least hm x hx), hq⟩

/-! ### No code word begins another (R105) -/

/-- Neither bit sequence begins with the other. -/
def Incomparable (v w : Bits) : Prop := ¬ v <+: w ∧ ¬ w <+: v

theorem incomparable_cons_iff (b : Bool) (v w : Bits) : Incomparable (b :: v) (b :: w) ↔ Incomparable v w := by
  simp [Incomparable]

theorem incomparable_cons_of_ne {b c : Bool} (h : b ≠ c) (v w : Bits) : Incomparable (b :: v) (c :: w) := by
  simp [Incomparable, h, h.symm]

/-- The paths to the leaves below one child all start with its bit, so they keep what they were to each other. -/
theorem walk_child_pairwise {t : HuffmanNode} (h : (walk t []).Pairwise fun p q => Incomparable p.2 q.2) (b : Bool) :
    (walk t [b]).Pairwise fun p q => Incomparable p.2 q.2 := by
  rw [walk_prefix, List.pairwise_map]
  exact h.imp fun hpq => (incomparable_cons_iff b _ _).2 hpq

/-- Two leaves either lie below the same child or part at the root. -/
theorem walk_pairwise (t : HuffmanNode) : (walk t []).Pairwise fun p q => Incomparable p.2 q.2 := by
  induction t with
  | leaf => exact List.pairwise_singleton _ _
  | internal w l r ihl ihr =>
    refine List.pairwise_append.2 ⟨walk_child_pairwise ihl false, walk_child_pairwise ihr true, ?_⟩
    intro p hp q hq
    rw [walk_prefix] at hp hq
    obtain ⟨p', -, rfl⟩ := List.mem_map.1 hp
    obtain ⟨q', -, rfl⟩ := List.mem_map.1 hq
    exact incomparable_cons_of_ne (by decide) _ _

/-- Settles O55: the code table of the empty tree has no two words, nor has that of a single leaf; else it is the walk. -/
theorem codeTableOfATreeIsPrefixFree : Obligations.CodeTableOfATreeIsPrefixFree
  | none => List.Pairwise.nil
  | some (.leaf _ _) => List.pairwise_singleton _ _
  | some (.internal w l r) => walk_pairwise (.internal w l r)

end Sys2Proof.Machine
end

section
/-! PROOFS. The round-trip law (spec/40_host_construction.md R104), in four parts: the built tree and its code table, the encode
program, the decode program, and the two put together. -/

namespace Sys2Proof.Machine

/-! ### The built tree and its code table (R96, R98) -/

theorem PriorityQueue.extractMin_singleton {α : Type} {q : PriorityQueue α} {m : QueueItem α} (h : q.items = [m]) :
    q.extractMin = some (m.item, ⟨[], q.inserts⟩) := by
  simp [extractMin, h, takeLeast]

/-- The built tree has the participating symbols at its leaves, the total count as weight, and weights that are sums. -/
theorem buildTree_of_participants {f : FrequencyTable} (h : participants f ≠ []) :
    ∃ t, buildTree f = some t ∧ t.symbols.Perm (participants f) ∧ t.weight = ((participants f).map f).sum ∧
      t.weightsAreSums := by
  match hp : participants f with
  | [] => exact absurd hp h
  | [sym] =>
    exact ⟨.leaf sym (f sym), by simp [buildTree, hp], .refl _, by simp [HuffmanNode.weight], trivial⟩
  | a :: b :: rest =>
    obtain ⟨hlen, hsyms, hweight, hsums⟩ := leafQueue_items f (a :: b :: rest)
    have hne : (leafQueue f (a :: b :: rest)).items ≠ [] := List.ne_nil_of_length_pos (by simp [hlen])
    obtain ⟨m, hm, hms, hmw, hmsums⟩ := mergeLoop_spec (a :: b :: rest).length _ hne (by omega) hsums
    exact ⟨m.item, by simp only [buildTree, hp, PriorityQueue.extractMin_singleton hm, Option.map_some],
      hms.trans hsyms, hmw.trans hweight, hmsums⟩

theorem buildTree_of_no_participants {f : FrequencyTable} (h : participants f = []) : buildTree f = none := by
  simp [buildTree, h]

theorem buildTree_symbols {f : FrequencyTable} {t : HuffmanNode} (h : buildTree f = some t) :
    t.symbols.Perm (participants f) := by
  by_cases hp : participants f = []
  · rw [buildTree_of_no_participants hp] at h; cases h
  · obtain ⟨t', ht', hperm, -, -⟩ := buildTree_of_participants hp
    obtain rfl : t' = t := Option.some.inj (ht'.symm.trans h)
    exact hperm

theorem buildTree_symbols_length {f : FrequencyTable} {t : HuffmanNode} (h : buildTree f = some t) :
    t.symbols.length ≤ 256 := (buildTree_symbols h).length_eq ▸ participants_length f

theorem buildTree_size {f : FrequencyTable} {t : HuffmanNode} (h : buildTree f = some t) : t.size ≤ 511 := by
  have := buildTree_symbols_length h
  have := t.size_symbols
  omega

/-- The code table lists the leaves' symbols, left to right. -/
theorem codes_symbols (t : HuffmanNode) : (codes (some t)).map Prod.fst = t.symbols := by
  cases t with
  | leaf sym w => rfl
  | internal w l r => exact walk_symbols (.internal w l r) []

/-- The code table of a built tree has a code word for each symbol that participates (R96, R98). -/
theorem exists_code_of_participant {f : FrequencyTable} {x : Byte} (hx : x ∈ participants f) :
    x ∈ (codes (buildTree f)).map Prod.fst := by
  obtain ⟨t, ht, hperm, -, -⟩ := buildTree_of_participants (List.ne_nil_of_mem hx)
  rw [ht, codes_symbols]
  exact hperm.symm.subset hx

/-- Code words have a length that `CT` can hold (R98: 1 to 255). -/
theorem codes_length {t : HuffmanNode} {p : Byte × Bits} (ht : t.symbols.length ≤ 256) (hp : p ∈ codes (some t)) :
    1 ≤ p.2.length ∧ p.2.length ≤ 255 := by
  cases t with
  | leaf sym w =>
    obtain rfl : p = (sym, [false]) := by simpa [codes] using hp
    simp
  | internal w l r =>
    have hlen : p.2.length ≤ (HuffmanNode.internal w l r).depth := walk_length hp
    have hdepth := (HuffmanNode.internal w l r).depth_symbols
    obtain ⟨b, v, hv, -⟩ := mem_walk_internal (w := w) hp
    exact ⟨by simp [hv], by omega⟩

theorem codes_buildTree_length {f : FrequencyTable} {p : Byte × Bits} (hp : p ∈ codes (buildTree f)) :
    1 ≤ p.2.length ∧ p.2.length ≤ 255 := by
  cases h : buildTree f with
  | none => rw [h] at hp; cases hp
  | some t => exact codes_length (buildTree_symbols_length h) (h ▸ hp)

/-! ### The entries a byte sequence uses of a code table -/

theorem mem_of_codeOf {C : CodeTable} {x : Byte} {w : Bits} (h : codeOf C x = some w) : (x, w) ∈ C := by
  obtain ⟨p, hp, rfl⟩ := Option.map_eq_some_iff.1 h
  obtain rfl : p.1 = x := by simpa using List.find?_some hp
  exact List.mem_of_find?_eq_some hp

theorem exists_codeOf {C : CodeTable} {x : Byte} (h : x ∈ C.map Prod.fst) : ∃ w, codeOf C x = some w := by
  obtain ⟨p, hp, rfl⟩ := List.mem_map.1 h
  exact Option.isSome_iff_exists.1 (by simpa [codeOf] using ⟨p.2, hp⟩)

/-- Each symbol of `S` with its code word, in input order. -/
def codedSymbols (C : CodeTable) (S : List Byte) : List (Byte × Bits) := S.map fun x => (x, (codeOf C x).getD [])

theorem codedSymbols_fst (C : CodeTable) (S : List Byte) : (codedSymbols C S).map Prod.fst = S := by
  simp [codedSymbols, Function.comp_def]

theorem codedSymbols_flatMap_snd (C : CodeTable) (S : List Byte) :
    (codedSymbols C S).flatMap Prod.snd = codeStream C S := by
  simp [codedSymbols, codeStream, List.flatMap_map]

theorem codedSymbols_subset {C : CodeTable} {S : List Byte} (hS : ∀ x ∈ S, x ∈ C.map Prod.fst) :
    ∀ e ∈ codedSymbols C S, e ∈ C := by
  intro e he
  obtain ⟨x, hx, rfl⟩ := List.mem_map.1 he
  obtain ⟨w, hw⟩ := exists_codeOf (hS x hx)
  simpa [hw] using mem_of_codeOf hw

/-! ### The encode program (R99, R101) -/

theorem mem_allSymbols (x : Byte) : x ∈ allSymbols :=
  List.mem_map.2 ⟨x.toNat, List.mem_range.2 x.isLt, by simp⟩

/-- `LoadCT(C)` leaves in `CT` the code words of `C` and no other entry, and writes nothing else (R99). -/
theorem execAll_loadCT {C : CodeTable} (hC : ∀ p ∈ C, 1 ≤ p.2.length ∧ p.2.length ≤ 255) (s : State) :
    ∃ (ct : Table CodeEntry) (rs : List Response),
      execAll (loadCT C) s = .next { s with enc := { s.enc with ct := ct }, responses := s.responses ++ rs } ∧
      ∀ sym : Byte, ct.read sym.toNat = (codeOf C sym).map CodeEntry.mk := by
  have hclear : exec .ctClear s = .next (respondOk 0 { s with enc := { s.enc with ct := Table.empty } }) := rfl
  obtain ⟨ct, rs, hrun, hread⟩ :=
    execAll_ctSets allSymbols C hC (respondOk 0 { s with enc := { s.enc with ct := Table.empty } })
  refine ⟨ct, ⟨0, 0⟩ :: rs, ?_, fun sym => ?_⟩
  · rw [loadCT, ctLoad, execAll_cons hclear, hrun]
    simp [respondOk, respond]
  · rw [hread]
    split
    next => simp
    next hno =>
      have hnone : codeOf C sym = none := by
        by_contra h
        exact hno ⟨sym, mem_allSymbols sym, rfl, h⟩
      simp [hnone]

/-- Pushing bits keeps the unused low bits of `ACC` 0 (R39 (c)). -/
theorem Enc.pushBits_acc_low (w : Bits) (e : Enc) (h : ∀ j, j < 8 - e.fill.toNat → e.acc.getLsbD j = false) :
    ∀ j, j < 8 - (e.pushBits w).fill.toNat → (e.pushBits w).acc.getLsbD j = false := by
  induction w generalizing e with
  | nil => exact h
  | cons b rest ih =>
    refine ih (e.pushBit b) fun j hj => ?_
    rcases e.pushBit_cases b with ⟨hf, he, hf1⟩ | ⟨-, he⟩
    · rw [he] at hj ⊢
      simp only [hf1] at hj ⊢
      rw [getLsbD_setBit _ _ (by omega) (by omega), if_neg (by omega)]
      exact h j (by omega)
    · simp [he]

theorem Enc.length_flush_out (e : Enc) : e.flush.out.length = ceilDiv8 e.streamBits.length := by
  have hf := e.fill.isLt
  have h0 : e.fill = 0 ↔ e.fill.toNat = 0 := BitVec.toNat_inj.symm
  rw [e.length_streamBits, Enc.flush_out, ceilDiv8]
  split
  next h => have := h0.1 h; omega
  next h => have := mt h0.2 h; rw [List.length_append, List.length_singleton]; omega

/-- Bytes are determined by their number and their bits, read as R42 numbers them. -/
theorem eq_packBits {bytes : List Byte} {w : Bits} (hl : bytes.length = ceilDiv8 w.length)
    (hb : ∀ k, (bytes.getD (k / 8) 0).getLsbD (7 - k % 8) = w.getD k false) : bytes = packBits w := by
  refine List.ext_getElem (by simpa using hl) fun i h1 h2 => BitVec.eq_of_getLsbD_eq fun j hj => ?_
  have h := (hb (8 * i + (7 - j))).trans (getLsbD_packBits w (8 * i + (7 - j))).symm
  have hdiv : (8 * i + (7 - j)) / 8 = i := by omega
  have hmod : 7 - (8 * i + (7 - j)) % 8 = j := by omega
  rw [hdiv, hmod] at h
  simpa only [List.getD_eq_getElem _ _ h1, List.getD_eq_getElem _ _ h2] using h

/-- The flush packs the stream bits (R42, R43). -/
theorem Enc.flush_out_eq_packBits {e : Enc} (hl : ∀ j, j < 8 - e.fill.toNat → e.acc.getLsbD j = false) :
    e.flush.out = packBits e.streamBits := eq_packBits e.length_flush_out (e.flush_bits hl)

theorem Enc.initState_pushBits_flush_out (e : Enc) (w : Bits) : (e.initState.pushBits w).flush.out = packBits w := by
  rw [Enc.flush_out_eq_packBits (Enc.pushBits_acc_low w _ (by simp)), Enc.streamBits_pushBits]
  simp [Enc.streamBits]

theorem Enc.initState_pushBits_bitlen (e : Enc) {w : Bits} (h : w.length < 2 ^ 64) :
    (e.initState.pushBits w).bitlen.toNat = w.length := by
  rw [Enc.pushBits_bitlen] <;> simp [Config.maxCount]; omega

theorem encResult_of_flush {t : State} {e : Enc} {w : Bits} (h : t.enc = (e.initState.pushBits w).flush) :
    encResult t = .ok (packBits w, (e.initState.pushBits w).bitlen) := by
  simp only [encResult, h, Enc.flush_st, Enc.flush_bitlen, Enc.initState_pushBits_flush_out]

/-- An encode run over symbols that all have a code word pushes the words on an empty stream and flushes it (R116). -/
theorem execAll_encInit_encSyms_encFlush {S : List Byte} {W : Bits} {s : State}
    (hS : ∀ x ∈ S, (s.enc.ct.read x.toNat).isSome = true)
    (hW : W = S.flatMap fun x => ((s.enc.ct.read x.toNat).map CodeEntry.code).getD []) (hl : W.length < 2 ^ 64) :
    ∃ rs, execAll (.encInit :: (S.map .encSym ++ [.encFlush])) s = .next
      { s with enc := (s.enc.initState.pushBits W).flush, responses := s.responses ++ rs } := by
  have hinit : exec .encInit s = .next (respondOk 0 { s with enc := s.enc.initState }) := rfl
  obtain ⟨rs, hsyms⟩ := execAll_encSyms S (respondOk 0 { s with enc := s.enc.initState }) rfl W hS hW
    (by simp [Config.maxCount]; omega)
  refine ⟨⟨0, 0⟩ :: rs ++ [⟨0, (s.enc.initState.pushBits W).bitlen⟩], ?_⟩
  rw [execAll_cons hinit, execAll_append hsyms, execAll_cons (exec_encFlush_streamOpen (by simp))]
  simp [execAll, respondOk, respond]

/-- `Encode(S, C)` from any state packs the code words of `S` (R101, R116). -/
theorem encodeProgram_result {S : List Byte} {C : CodeTable} (hC : ∀ p ∈ C, 1 ≤ p.2.length ∧ p.2.length ≤ 255)
    (hS : ∀ x ∈ S, x ∈ C.map Prod.fst) (hl : (codeStream C S).length < 2 ^ 64) (s : State) :
    ∃ (t : State) (bitlen : Word), execAll (encodeProgram S C) s = .next t ∧
      encResult t = .ok (packBits (codeStream C S), bitlen) ∧ bitlen.toNat = (codeStream C S).length := by
  obtain ⟨ct, rs, hload, hread⟩ := execAll_loadCT hC s
  have hsome : ∀ x ∈ S, (ct.read x.toNat).isSome = true := fun x hx => by
    obtain ⟨w, hw⟩ := exists_codeOf (hS x hx)
    simp [hread, hw]
  have hW : codeStream C S = S.flatMap fun x => ((ct.read x.toNat).map CodeEntry.code).getD [] := by
    simp [codeStream, hread, Function.comp_def]
  obtain ⟨rs', hrun⟩ := execAll_encInit_encSyms_encFlush
    (s := { s with enc := { s.enc with ct := ct }, responses := s.responses ++ rs }) hsome hW hl
  exact ⟨_, _, (execAll_append hload _).trans hrun, encResult_of_flush rfl, Enc.initState_pushBits_bitlen _ hl⟩

/-! ### The decode program (R100, R102) -/

/-- The decoder holds a tree, the empty one included, at `ROOT` (R27, R100). -/
def Dec.holds (d : Dec) : Option HuffmanNode → Prop
  | none => d.root.present = false
  | some t => d.root.present = true ∧ d.tree.holdsTree t d.root.idx.toNat

/-- `LoadTree(T)` of a tree that fits leaves it in `TREE` from index 0 on, no further entry, and writes nothing else (R100). -/
theorem execAll_loadTree_some {T : HuffmanNode} (hT : T.size ≤ 511) (s : State) :
    ∃ (tree : Table Node) (rs : List Response),
      execAll (loadTree (some T)) s = .next
        { s with dec := { s.dec with tree := tree, root := ⟨true, 0⟩ }, responses := s.responses ++ rs } ∧
      tree.holdsTree T 0 ∧ ∀ k, T.size ≤ k → tree.read k = none := by
  have hclear : exec .treeClear s =
      .next (respondOk 0 { s with dec := { s.dec with tree := Table.empty, root := ⟨false, 0⟩ } }) := rfl
  obtain ⟨tree, rs, hwrites, hread, hother⟩ := execAll_nodeWrites (preorder T 0) 0 (by simpa using hT)
    (preorder_legal T 0 (by omega))
    (respondOk 0 { s with dec := { s.dec with tree := Table.empty, root := ⟨false, 0⟩ } })
  have hlisting : loadTree (some T) = .treeClear :: (nodeWrites (preorder T 0) 0 ++ [.treeRoot 0]) := by
    cases T <;> rfl
  refine ⟨tree, ⟨0, 0⟩ :: rs ++ [⟨0, 0⟩], ?_, ?_, fun k hk => ?_⟩
  · rw [hlisting, execAll_cons hclear, execAll_append hwrites]
    simp [execAll, exec, execTreeRoot, treeIndex?, respondOk, respond]
  · exact holdsTree_of_preorder T 0 tree (by omega) (by simpa using hread)
  · rw [hother k (.inr (by simpa using hk))]
    rfl

/-- After `LoadTree(T)` the decoder holds `T` (R100). -/
theorem loadTree_holds {T : Option HuffmanNode} (hT : ∀ t, T = some t → t.size ≤ 511) (s : State) :
    ∃ t, execAll (loadTree T) s = .next t ∧ t.dec.holds T := by
  cases T with
  | none => exact ⟨_, rfl, rfl⟩
  | some T =>
    obtain ⟨tree, rs, hrun, hheld, -⟩ := execAll_loadTree_some (hT T rfl) s
    exact ⟨_, hrun, rfl, hheld⟩

/-- With a single leaf a bit 0 is a symbol (R136, R140). -/
theorem Dec.decStep_leaf {d : Dec} {sym : Byte} (hb : d.bitcnt.toNat ≠ Config.maxCount) (hp : d.root.present = true)
    (hm : d.mid = false) (hr : d.tree.read d.root.idx.toNat = some (.leaf sym)) : d.decStep false = .ok (d.emit sym) := by
  simp [Dec.decStep, Dec.cur, hb, hp, hm, hr]

/-- Feeding a single-leaf tree its code words, each one bit 0, emits a symbol for each (R140). -/
theorem Dec.feed_leafWords {d : Dec} {sym : Byte} {es : List (Byte × Bits)} (hp : d.root.present = true)
    (hm : d.mid = false) (hr : d.tree.read d.root.idx.toNat = some (.leaf sym)) (he : ∀ e ∈ es, e = (sym, [false]))
    (hb : d.bitcnt.toNat + (es.flatMap Prod.snd).length < 2 ^ 64) :
    ∃ d' : Dec, d.feed (es.flatMap Prod.snd) = (d', none) ∧ d'.out = d.out ++ es.map Prod.fst ∧ d'.mid = false ∧
      d'.st = d.st := by
  induction es generalizing d with
  | nil => exact ⟨d, rfl, by simp, hm, rfl⟩
  | cons e rest ih =>
    obtain ⟨rfl, hrest⟩ := List.forall_mem_cons.1 he
    simp only [List.flatMap_cons, List.singleton_append, List.length_cons] at hb ⊢
    have hstep := Dec.decStep_leaf (by unfold Config.maxCount; omega) hp hm hr
    have hcnt : (d.emit sym).bitcnt.toNat = d.bitcnt.toNat + 1 := toNat_add_one (by omega)
    obtain ⟨d', hfeed, hout, hmid, hst⟩ := ih (d := d.emit sym) hp rfl hr hrest (by omega)
    exact ⟨d', (Dec.feed_cons_ok _ hstep).trans hfeed, by simp [hout], hmid, hst⟩

/-- Feeding code words of the held tree emits their symbols and ends between two symbols (R140). -/
theorem Dec.feed_codes {T : Option HuffmanNode} {d : Dec} {es : List (Byte × Bits)} (hh : d.holds T) (hm : d.mid = false)
    (he : ∀ e ∈ es, e ∈ codes T) (hb : d.bitcnt.toNat + (es.flatMap Prod.snd).length < 2 ^ 64) :
    ∃ d' : Dec, d.feed (es.flatMap Prod.snd) = (d', none) ∧ d'.out = d.out ++ es.map Prod.fst ∧ d'.mid = false ∧
      d'.st = d.st := by
  match T with
  | none =>
    obtain rfl : es = [] := List.eq_nil_iff_forall_not_mem.2 fun e h => by cases he e h
    exact ⟨d, rfl, by simp, hm, rfl⟩
  | some (.leaf sym w) =>
    obtain ⟨hp, hr⟩ := hh
    exact Dec.feed_leafWords hp hm hr (fun e h => by simpa [codes] using he e h) hb
  | some (.internal w l r) =>
    obtain ⟨hp, hr⟩ := hh
    have hne : ∀ e ∈ walk (.internal w l r) [], e.2 ≠ [] := fun e h => by
      obtain ⟨b, v, hv, -⟩ := mem_walk_internal h
      simp [hv]
    obtain ⟨d', hfeed, hout, hmid, -, -, hst, -⟩ := Dec.feed_codeWords hr hp hm he hne hb
    exact ⟨d', hfeed, hout, hmid, hst⟩

/-- `DEC_STREAM` of packed bits that raise nothing feeds them (R81, R138). -/
theorem execAll_decStream_packBits {w : Bits} {s : State} {d : Dec} (hs : s.dec.st = .run)
    (hf : s.dec.feed w = (d, none)) :
    ∃ rs, execAll (decStream (packBits w) w.length) s = .next { s with dec := d, responses := s.responses ++ rs } := by
  obtain ⟨L, hL, hlegal, hw⟩ := decStream_packBits w
  obtain ⟨rs, h⟩ := execAll_decBytes L hlegal s hs w hw
  exact ⟨rs, by simpa [hL, hf] using h⟩

/-- `Decode(bytes, bitlen, T)` of packed code words of `T` from any state gives their symbols (R102, R140). -/
theorem decodeProgram_result {T : Option HuffmanNode} {es : List (Byte × Bits)} (hT : ∀ t, T = some t → t.size ≤ 511)
    (he : ∀ e ∈ es, e ∈ codes T) (hl : (es.flatMap Prod.snd).length < 2 ^ 64) (s : State) :
    ∃ u, execAll (decodeProgram (packBits (es.flatMap Prod.snd)) (es.flatMap Prod.snd).length T) s = .next u ∧
      decResult u = .ok (es.map Prod.fst) := by
  obtain ⟨t, hload, hheld⟩ := loadTree_holds hT s
  have hinit : exec .decInit t = .next (respondOk 0 { t with dec := t.dec.initState }) := rfl
  have hheld' : t.dec.initState.holds T := by cases T <;> exact hheld
  obtain ⟨d, hfeed, hout, hmid, hst⟩ := Dec.feed_codes hheld' rfl he (by simpa using hl)
  obtain ⟨rs, hstream⟩ := execAll_decStream_packBits (s := respondOk 0 { t with dec := t.dec.initState }) rfl hfeed
  rw [decodeProgram, execAll_append hload, execAll_cons hinit, execAll_append hstream,
    execAll_cons (exec_decEnd_run hst hmid)]
  exact ⟨_, rfl, by simp [decResult, hout]⟩

/-! ### The round-trip law (R104) -/

/-- Settles O52: `S` is the symbols of its code words (`codedSymbols`), which `Encode` packs and `Decode` takes apart. -/
theorem roundTripLaw : Obligations.RoundTripLaw := by
  rintro S s T C rfl rfl hl
  have hS : ∀ x ∈ S, x ∈ (codes (buildTree (freq S))).map Prod.fst := fun x hx =>
    exists_code_of_participant ((mem_participants _ x).2 (List.count_pos_iff.2 hx))
  obtain ⟨t, bitlen, henc, hres, hlen⟩ := encodeProgram_result (fun _ => codes_buildTree_length) hS hl s
  obtain ⟨u, hdec, hout⟩ := decodeProgram_result (fun _ => buildTree_size) (codedSymbols_subset hS)
    (by rwa [codedSymbols_flatMap_snd]) t
  rw [codedSymbols_flatMap_snd, ← hlen] at hdec
  rw [codedSymbols_fst] at hout
  exact ⟨t, u, _, bitlen, henc, hres, hlen, hdec, hout⟩

end Sys2Proof.Machine
end

section
/-! PROOFS. The family spec/41_encoder.md: the encoder commands one by one (R110 to R115). Each command's effect in each of its
cases is an equation of `exec`, and `PushBit` is `Enc.pushBit_cases` with the bits of the byte it writes. -/

namespace Sys2Proof.Machine

/-! ### CT_SET (R112) -/

/-- `CT_SET` with legal operands writes the entry of its symbol. -/
theorem exec_ctSet_wellFormed {sym len : Byte} {codebytes : List Byte}
    (h : (Instr.ctSet sym len codebytes).wellFormed = true) (hl : codebytes.length = ceilDiv8 len.toNat) (s : State) :
    exec (.ctSet sym len codebytes) s = .next (respondOk 0
      { s with enc := { s.enc with ct := s.enc.ct.write sym.toNat ⟨codeBits len.toNat codebytes⟩ } }) := by
  obtain ⟨hpos, -, hpad⟩ := (wellFormed_ctSet_iff hl).1 h
  have hc := codeWord?_legal (Nat.ne_of_gt hpos) hl ((mod_two_pow_eq_zero_iff _ _).2 hpad)
  simp only [exec, execCtSet, hc]

/-- Settles O7: `CT_SET` writes `codeBits` at its symbol when its operands are legal, and is refused as every command with an
illegal operand is. -/
theorem ctSetStoresTheCodeWord : Obligations.CtSetStoresTheCodeWord := by
  intro sym len codebytes s hl
  refine ⟨rfl, fun hlen hpad => ?_, fun hbad => ?_⟩
  · have hwf : (Instr.ctSet sym len codebytes).wellFormed = true :=
      (wellFormed_ctSet_iff hl).2 ⟨by bv_omega, by bv_omega, hpad⟩
    exact ⟨_, codeBits len.toNat codebytes, exec_ctSet_wellFormed hwf hl s, Table.read_write_same _ _ _,
      length_codeBits _ _, fun i hi => getElem?_codeBits codebytes hi, fun k hk => Table.read_write_other _ _ hk, rfl⟩
  · refine exec_illFormed (Bool.eq_false_iff.2 fun hwf => ?_) s
    obtain ⟨hpos, -, hpad⟩ := (wellFormed_ctSet_iff hl).1 hwf
    rcases hbad with rfl | ⟨j, hj, hset⟩
    · exact absurd hpos (by decide)
    · exact absurd (hset.symm.trans (hpad j hj)) (by decide)

/-! ### PushBit (R113) -/

/-- Settles O8: in each case of `PushBit` the byte written is `ACC` with the one bit `7 - FILL` replaced. -/
theorem pushBitFillsTheByteFromItsTop : Obligations.PushBitFillsTheByteFromItsTop := by
  intro b e
  have h7 : e.fill = 7 ↔ e.fill.toNat = 7 := BitVec.toNat_inj.symm
  rcases e.pushBit_cases b with ⟨hlt, hpush, -⟩ | ⟨hfull, hpush⟩
  · refine ⟨fun _ => ⟨_, hpush, fun j hj => getLsbD_setBit _ b (by omega) hj⟩, fun h => ?_⟩
    have := h7.1 h
    omega
  · exact ⟨fun h => absurd (h7.2 hfull) h, fun _ => ⟨_, hpush, fun j hj => getLsbD_setBit _ b (by omega) hj⟩⟩

/-! ### ENC_SYM (R114) -/

/-- In `ERROR` the latched error is repeated (R181). -/
theorem exec_encSym_error {sym : Byte} {s : State} (hst : s.enc.st = .error) :
    exec (.encSym sym) s = .next (encRepeat s) := by
  simp only [exec, execEncSym, hst]

/-- In `DONE` the stream takes no symbol. -/
theorem exec_encSym_done {sym : Byte} {s : State} (hst : s.enc.st = .done) :
    exec (.encSym sym) s = .next (illegal 0x13 s) := by
  simp only [exec, execEncSym, hst]

/-- A symbol without a code word. -/
theorem exec_encSym_missing {sym : Byte} {s : State} (hst : s.enc.st = .streamOpen)
    (hr : s.enc.ct.read sym.toNat = none) :
    exec (.encSym sym) s = .next (encRaise ⟨.symbolNotInCodeTable, sym.setWidth 64⟩ s) := by
  simp only [exec, execEncSym, hst, hr]

/-- A code word past the limit of `BITLEN`. -/
theorem exec_encSym_overflow {sym : Byte} {s : State} {e : CodeEntry} (hst : s.enc.st = .streamOpen)
    (hr : s.enc.ct.read sym.toNat = some e) (hl : s.enc.bitlen.toNat + e.code.length > Config.maxCount) :
    exec (.encSym sym) s = .next (encRaise ⟨.lengthOverflow, sym.setWidth 64⟩ s) := by
  have h : s.enc.bitlen.toNat + e.len > Config.maxCount := hl
  simp only [exec, execEncSym, hst, hr, h, if_true]

/-- Settles O9: one equation of `exec` per case; in the last one the bits are pushed from the first on and none wraps the
counter. -/
theorem encSymPushesTheCodeWordOfItsSymbol : Obligations.EncSymPushesTheCodeWordOfItsSymbol := by
  intro sym s
  refine ⟨rfl, exec_encSym_error, exec_encSym_done, exec_encSym_missing, fun e => exec_encSym_overflow,
    fun e hst hr hl => ⟨_, exec_encSym_open hst hr hl, ?_⟩⟩
  exact ⟨s.enc.pushBits_eq_foldl e.code, s.enc.pushBits_bitlen e.code hl, s.enc.pushBits_ct e.code,
    (s.enc.pushBits_st e.code).trans hst, s.enc.pushBits_ecode e.code, s.enc.pushBits_einfo e.code, rfl⟩

/-! ### ENC_INIT and CT_CLEAR (R110, R111) -/

theorem exec_encInit (s : State) : exec .encInit s = .next (respondOk 0 { s with enc := s.enc.initState }) := rfl

theorem exec_ctClear (s : State) :
    exec .ctClear s = .next (respondOk 0 { s with enc := { s.enc with ct := Table.empty } }) := rfl

/-- Settles O5: `Enc.initState` sets the seven stream registers. -/
theorem encInitStartsAnEmptyStream : Obligations.EncInitStartsAnEmptyStream := ⟨rfl, exec_encInit⟩

/-- Settles O6: the empty table has an entry nowhere. -/
theorem ctClearInvalidatesEveryEntry : Obligations.CtClearInvalidatesEveryEntry :=
  ⟨rfl, fun s => ⟨_, exec_ctClear s, Table.read_empty, rfl⟩⟩

/-! ### ENC_FLUSH (R115) -/

/-- In `ERROR` the latched error is repeated (R181). -/
theorem exec_encFlush_error {s : State} (hst : s.enc.st = .error) : exec .encFlush s = .next (encRepeat s) := by
  simp only [exec, execEncFlush, hst]

/-- In `DONE` the bit count is answered again. -/
theorem exec_encFlush_done {s : State} (hst : s.enc.st = .done) :
    exec .encFlush s = .next (respondOk s.enc.bitlen s) := by
  simp only [exec, execEncFlush, hst]

/-- The flush appends the bit buffer when it holds a bit, and nothing else. -/
theorem Enc.flush_eq_append (e : Enc) : e.flush =
    { e with out := e.out ++ (if 0 < e.fill.toNat then [e.acc] else []), acc := 0, fill := 0, st := .done } := by
  have h0 : e.fill = 0 ↔ e.fill.toNat = 0 := BitVec.toNat_inj.symm
  unfold Enc.flush
  split
  next h => simp [h]
  next h => rw [if_pos (Nat.pos_of_ne_zero (mt h0.2 h))]

/-- Settles O11: one equation of `exec` per state of the encoder; in `OPEN` it is the flush. -/
theorem encFlushEmitsThePartialByteAndCloses : Obligations.EncFlushEmitsThePartialByteAndCloses := by
  refine ⟨rfl, fun s => ⟨exec_encFlush_error, exec_encFlush_done, fun hst => ?_⟩⟩
  rw [exec_encFlush_streamOpen hst, Enc.flush_eq_append]
  rfl

end Sys2Proof.Machine
end

section
/-! PROOFS. The family spec/42_decoder.md: the decoder commands one by one (R130 to R139). Each command's effect in each of its
cases is an equation of `exec`, and each case of `DecStep` an equation of `Dec.decStep`; `DEC_BYTE` adds what feeding bits
along a chain of transitions does. -/

namespace Sys2Proof.Machine

/-! ### DecStep (R136) -/

theorem Dec.cur_eq_root {d : Dec} (hm : d.mid = false) : d.cur = d.root.idx := by
  simp [Dec.cur, hm]

/-- The counter limit is tested first. -/
theorem Dec.decStep_overflow {d : Dec} {b : Bool} (hb : d.bitcnt.toNat = Config.maxCount) :
    d.decStep b = .error ⟨.lengthOverflow, d.bitcnt⟩ := by
  simp [Dec.decStep, hb]

/-- A tree without a root takes no bit. -/
theorem Dec.decStep_noRoot {d : Dec} {b : Bool} (hb : d.bitcnt.toNat ≠ Config.maxCount) (hp : d.root.present = false) :
    d.decStep b = .error ⟨.emptyTreeNonEmptyStream, d.bitcnt⟩ := by
  simp [Dec.decStep, hb, hp]

/-- The current entry holds no node. -/
theorem Dec.decStep_invalidEntry {d : Dec} {b : Bool} (hb : d.bitcnt.toNat ≠ Config.maxCount)
    (hp : d.root.present = true) (hr : d.tree.read d.cur.toNat = none) :
    d.decStep b = .error ⟨.invalidNode, d.cur.setWidth 64⟩ := by
  simp [Dec.decStep, hb, hp, hr]

/-- A leaf where a path goes on is no node to descend from. -/
theorem Dec.decStep_leafMidPath {d : Dec} {b : Bool} {sym : Byte} (hb : d.bitcnt.toNat ≠ Config.maxCount)
    (hp : d.root.present = true) (hr : d.tree.read d.cur.toNat = some (.leaf sym)) (hm : d.mid = true) :
    d.decStep b = .error ⟨.invalidNode, d.cur.setWidth 64⟩ := by
  simp [Dec.decStep, hb, hp, hr, hm]

/-- With a single leaf a bit 1 is no code word. -/
theorem Dec.decStep_leaf_true {d : Dec} {sym : Byte} (hb : d.bitcnt.toNat ≠ Config.maxCount)
    (hp : d.root.present = true) (hr : d.tree.read d.cur.toNat = some (.leaf sym)) (hm : d.mid = false) :
    d.decStep true = .error ⟨.malformedStream, d.bitcnt⟩ := by
  simp [Dec.decStep, hb, hp, hr, hm]

/-- The selected child holds no node. -/
theorem Dec.decStep_invalidChild {d : Dec} {b : Bool} {li ri : Idx} (hb : d.bitcnt.toNat ≠ Config.maxCount)
    (hp : d.root.present = true) (hc : d.tree.read d.cur.toNat = some (.internal li ri))
    (hn : d.tree.read (if b then ri else li).toNat = none) :
    d.decStep b = .error ⟨.invalidNode, (if b then ri else li).setWidth 64⟩ := by
  simp [Dec.decStep, hb, hp, hc, hn]

/-- Settles O18: one equation of `Dec.decStep` per case, an emission being `Dec.emit` and a descent `Dec.descend`. -/
theorem decStepTakesOneTransition : Obligations.DecStepTakesOneTransition := by
  intro b d cur nxt hcur
  obtain rfl : cur = d.cur := hcur
  refine ⟨Dec.decStep_overflow, fun hb => ⟨Dec.decStep_noRoot hb, fun hp =>
    ⟨Dec.decStep_invalidEntry hb hp, fun sym hr => ⟨Dec.decStep_leafMidPath hb hp hr, ?_, ?_⟩, ?_⟩⟩⟩
  · rintro hm rfl
    exact Dec.decStep_leaf_true hb hp hr hm
  · rintro hm rfl
    exact Dec.decStep_leaf hb hp hm (Dec.cur_eq_root hm ▸ hr)
  · rintro left right hc rfl
    exact ⟨Dec.decStep_invalidChild hb hp hc, fun _ => Dec.decStep_toLeaf hb hp hc,
      fun _ _ => Dec.decStep_toInternal hb hp hc⟩

/-! ### Consuming bits in state RUN (R137, R138) -/

/-- All bits accepted: the command completes. -/
theorem decConsume_ok {w : Bits} {s : State} {d : Dec} (h : s.dec.feed w = (d, none)) :
    decConsume w s = respondOk 0 { s with dec := d } := by
  simp [decConsume, h]

/-- A bit raised: the error is entered from the state the bits before it left. -/
theorem decConsume_raised {w : Bits} {s : State} {d : Dec} {r : Raised} (h : s.dec.feed w = (d, some r)) :
    decConsume w s = decRaise r { s with dec := d } := by
  simp [decConsume, h]

/-- Feeding bits along a chain of accepted transitions ends at the end of the chain. -/
theorem Dec.feed_chain {f : Nat → Bool} {d : Nat → Dec} {m : Nat}
    (h : ∀ k, k < m → (d k).decStep (f k) = .ok (d (k + 1))) : (d 0).feed ((List.range m).map f) = (d m, none) := by
  induction m with
  | zero => rfl
  | succ m ih =>
    rw [List.range_succ, List.map_append, Dec.feed_append, ih fun k hk => h k (by omega)]
    exact Dec.feed_cons_ok [] (h m (by omega))

/-- Feeding bits stops where the chain meets a bit that raises; the bits after it are not looked at. -/
theorem Dec.feed_chain_error {f : Nat → Bool} {d : Nat → Dec} {m n : Nat} {r : Raised}
    (h : ∀ k, k < m → (d k).decStep (f k) = .ok (d (k + 1))) (hm : m < n) (hr : (d m).decStep (f m) = .error r) :
    (d 0).feed ((List.range n).map f) = (d m, some r) := by
  obtain ⟨p, rfl⟩ : ∃ p, n = m + 1 + p := ⟨n - (m + 1), by omega⟩
  rw [List.range_add, List.range_succ, List.map_append, List.map_append, List.append_assoc, Dec.feed_append,
    Dec.feed_chain h]
  exact Dec.feed_cons_error _ hr

/-! ### DEC_BIT (R137) -/

/-- In `ERROR` the latched error is repeated (R181). -/
theorem exec_decBit_error {a : Byte} {s : State} (ha : a.extractLsb' 1 7 = 0) (hst : s.dec.st = .error) :
    exec (.decBit a) s = .next (decRepeat s) := by
  simp only [exec, execDecBit, bitOperand?_legal ha, hst]

/-- In `DONE` the stream takes no bit. -/
theorem exec_decBit_done {a : Byte} {s : State} (ha : a.extractLsb' 1 7 = 0) (hst : s.dec.st = .done) :
    exec (.decBit a) s = .next (illegal 0x25 s) := by
  simp only [exec, execDecBit, bitOperand?_legal ha, hst]

/-- In `RUN` bit 0 of the operand byte is consumed. -/
theorem exec_decBit_run {a : Byte} {s : State} (ha : a.extractLsb' 1 7 = 0) (hst : s.dec.st = .run) :
    exec (.decBit a) s = .next (decConsume [a.getLsbD 0] s) := by
  simp only [exec, execDecBit, bitOperand?_legal ha, hst]

/-- Settles O19: one equation of `exec` per case; in `RUN` the one bit is accepted or raises. -/
theorem decBitConsumesOneBit : Obligations.DecBitConsumesOneBit := by
  intro a s
  refine ⟨rfl, fun ha => exec_illFormed (Bool.eq_false_iff.2 (mt (wellFormed_decBit_iff a).1 ha)) s,
    fun ha => ⟨exec_decBit_error ha, exec_decBit_done ha, fun hst => ⟨fun d hd => ?_, fun r hr => ?_⟩⟩⟩
  · rw [exec_decBit_run ha hst, decConsume_ok (Dec.feed_cons_ok [] hd)]
    rfl
  · rw [exec_decBit_run ha hst, decConsume_raised (Dec.feed_cons_error [] hr)]
    rfl

/-! ### DEC_BYTE (R138) -/

/-- In `ERROR` the latched error is repeated (R181). -/
theorem exec_decByte_error {v n : Byte} {s : State} (h1 : 1 ≤ n.toNat) (h8 : n.toNat ≤ 8) (hst : s.dec.st = .error) :
    exec (.decByte v n) s = .next (decRepeat s) := by
  simp only [exec, execDecByte, streamBits?_legal h1 h8, hst]

/-- In `DONE` the stream takes no bit. -/
theorem exec_decByte_done {v n : Byte} {s : State} (h1 : 1 ≤ n.toNat) (h8 : n.toNat ≤ 8) (hst : s.dec.st = .done) :
    exec (.decByte v n) s = .next (illegal 0x26 s) := by
  simp only [exec, execDecByte, streamBits?_legal h1 h8, hst]

/-- In `RUN` the `n` top bits of `v` are consumed. -/
theorem exec_decByte_run {v n : Byte} {s : State} (h1 : 1 ≤ n.toNat) (h8 : n.toNat ≤ 8) (hst : s.dec.st = .run) :
    exec (.decByte v n) s = .next (decConsume (topBits v n.toNat) s) := by
  simp only [exec, execDecByte, streamBits?_legal h1 h8, hst]

/-- Settles O20: one equation of `exec` per case; in `RUN` the top bits are fed along the chain of transitions given. -/
theorem decByteStepsThroughItsTopBits : Obligations.DecByteStepsThroughItsTopBits := by
  intro v n s
  refine ⟨rfl, fun hn => exec_illFormed (Bool.eq_false_iff.2 (mt (wellFormed_decByte_iff v n).1 (by omega))) s,
    fun h1 h8 => ⟨exec_decByte_error h1 h8, exec_decByte_done h1 h8, fun hst d m hd _ hchain =>
      ⟨fun hm => ?_, fun r hm hr => ?_⟩⟩⟩
  · have hfeed : s.dec.feed (topBits v n.toNat) = (d m, none) := hd ▸ hm ▸ Dec.feed_chain hchain
    rw [exec_decByte_run h1 h8 hst, decConsume_ok hfeed]
    rfl
  · have hfeed : s.dec.feed (topBits v n.toNat) = (d m, some r) := hd ▸ Dec.feed_chain_error hchain hm hr
    rw [exec_decByte_run h1 h8 hst, decConsume_raised hfeed]
    rfl

/-! ### DEC_INIT and TREE_CLEAR (R130, R131) -/

theorem exec_decInit (s : State) : exec .decInit s = .next (respondOk 0 { s with dec := s.dec.initState }) := rfl

theorem exec_treeClear (s : State) : exec .treeClear s =
    .next (respondOk 0 { s with dec := { s.dec with tree := Table.empty, root := ⟨false, 0⟩ } }) := rfl

/-- Settles O13: `Dec.initState` sets the seven decode registers. -/
theorem decInitStartsAtTheRoot : Obligations.DecInitStartsAtTheRoot := ⟨rfl, exec_decInit⟩

/-- Settles O14: the empty table has an entry nowhere. -/
theorem treeClearMakesTheTreeEmpty : Obligations.TreeClearMakesTheTreeEmpty :=
  ⟨rfl, fun s => ⟨_, exec_treeClear s, Table.read_empty, rfl, rfl⟩⟩

/-! ### TREE_LEAF, TREE_INT, TREE_ROOT (R132 to R134) -/

theorem legalIndex_eq_false {idx : BitVec 16} (h : 510 < idx.toNat) : legalIndex idx = false :=
  Bool.eq_false_iff.2 (mt (legalIndex_iff idx).1 (by omega))

/-- `TREE_LEAF` at a legal index writes the leaf there. -/
theorem exec_treeLeaf_legal {idx : BitVec 16} (h : idx.toNat ≤ 510) (sym : Byte) (s : State) :
    exec (.treeLeaf idx sym) s =
      .next (respondOk 0 { s with dec := { s.dec with tree := s.dec.tree.write idx.toNat (.leaf sym) } }) := by
  obtain ⟨hi, hnat⟩ := treeIndex?_legal h
  simp only [exec, execTreeLeaf, hi, hnat]

/-- `TREE_INT` with three legal indices writes the internal node at the first. -/
theorem exec_treeInt_legal {idx left right : BitVec 16} (h : idx.toNat ≤ 510) (hl : left.toNat ≤ 510)
    (hr : right.toNat ≤ 510) (s : State) : exec (.treeInt idx left right) s = .next (respondOk 0 { s with
      dec := { s.dec with
        tree := s.dec.tree.write idx.toNat (.internal (left.setWidth 9) (right.setWidth 9)) } }) := by
  obtain ⟨hi, hnat⟩ := treeIndex?_legal h
  simp only [exec, execTreeInt, hi, hnat, (treeIndex?_legal hl).1, (treeIndex?_legal hr).1]

/-- `TREE_ROOT` of a legal index names it as the root. -/
theorem exec_treeRoot_legal {idx : BitVec 16} (h : idx.toNat ≤ 510) (s : State) :
    exec (.treeRoot idx) s =
      .next (respondOk 0 { s with dec := { s.dec with root := ⟨true, idx.setWidth 9⟩ } }) := by
  simp only [exec, execTreeRoot, (treeIndex?_legal h).1]

/-- Settles O15: a legal `TREE_LEAF` is one table write; an illegal index is refused as every illegal operand is. -/
theorem treeLeafWritesOneLeaf : Obligations.TreeLeafWritesOneLeaf := fun idx sym s =>
  ⟨rfl, fun h => ⟨_, exec_treeLeaf_legal h sym s, Table.read_write_same _ _ _,
    fun _ hk => Table.read_write_other _ _ hk, rfl⟩,
    fun h => exec_illFormed (i := .treeLeaf idx sym) (legalIndex_eq_false h) s⟩

/-- Settles O16: a legal `TREE_INT` is one table write, the children's indices keeping their values in 9 bits; one illegal
index among the three makes the command ill formed. -/
theorem treeIntWritesOneInternalNode : Obligations.TreeIntWritesOneInternalNode := fun idx left right s =>
  ⟨rfl, fun h hl hr => ⟨_, _, _, exec_treeInt_legal h hl hr s, (treeIndex?_legal hl).2, (treeIndex?_legal hr).2,
    Table.read_write_same _ _ _, fun _ hk => Table.read_write_other _ _ hk, rfl⟩,
    fun hbad => exec_illFormed (Bool.eq_false_iff.2 (mt (wellFormed_treeInt_iff idx left right).1 (by omega))) s⟩

/-- Settles O17: a legal `TREE_ROOT` writes `ROOT`, the index keeping its value in 9 bits; an illegal index is refused. -/
theorem treeRootNamesTheRoot : Obligations.TreeRootNamesTheRoot := fun idx s =>
  ⟨rfl, fun h => ⟨_, exec_treeRoot_legal h s, rfl, (treeIndex?_legal h).2, rfl⟩,
    fun h => exec_illFormed (i := .treeRoot idx) (legalIndex_eq_false h) s⟩

/-! ### DEC_END (R139) -/

/-- In `DONE` the number of symbols is answered again. -/
theorem exec_decEnd_done {s : State} (hst : s.dec.st = .done) :
    exec .decEnd s = .next (respondOk (lengthWord s.dec.out) s) := by
  simp only [exec, execDecEnd, hst]

/-- The length of an output below the register's limit is read back whole. -/
theorem toNat_lengthWord {l : List Byte} (h : l.length < 2 ^ 64) : (lengthWord l).toNat = l.length := by
  rw [lengthWord, BitVec.toNat_ofNat, Nat.mod_eq_of_lt h]

/-- Settles O23: one equation of `exec` per case; the count answered is `lengthWord` of `DEC_OUT`. -/
theorem decEndClosesOnlyBetweenSymbols : Obligations.DecEndClosesOnlyBetweenSymbols :=
  ⟨rfl, fun _ => ⟨exec_decEnd_error, fun hst => ⟨_, exec_decEnd_done hst, toNat_lengthWord⟩, exec_decEnd_mid,
    fun hst hm => ⟨_, exec_decEnd_run hst hm, toNat_lengthWord⟩⟩⟩

end Sys2Proof.Machine
end

section
/-! PROOFS. The family spec/43_system.md: `NOP`, `RESET` and `RDREG`. What the commands of the engines cannot do (R161) is
`exec_encoder` and `exec_decoder`; a packed register (R36) is read field by field through its value as a number. -/

namespace Sys2Proof.Machine

/-! ### NOP (R160) -/

theorem exec_nop (s : State) : exec .nop s = .next (respondOk 0 s) := rfl

/-- Settles O1: `NOP` is a response alone. -/
theorem nopAnswersOkAndWritesNothing : Obligations.NopAnswersOkAndWritesNothing := ⟨rfl, exec_nop⟩

/-! ### RESET (R161) -/

theorem exec_reset (s : State) : exec .reset s = .next (respondOk 0 (resetBlock s)) := rfl

/-- No other command clears `CMDERR`: those of the engines raise it or leave it. -/
theorem exec_keeps_cmderr {i : Instr} {s u : State} (hi : i ≠ .reset) (hx : exec i s = .next u) (hs : s.cmderr = true) :
    u.cmderr = true := by
  by_cases he : i.isEncoder = true
  · obtain ⟨f, hf, -⟩ := exec_encoder he
    cases (hf s).symm.trans hx
    simp [hs]
  by_cases hd : i.isDecoder = true
  · obtain ⟨f, hf, -⟩ := exec_decoder hd
    cases (hf s).symm.trans hx
    simp [hs]
  rcases system_command (by simpa using he) (by simpa using hd) with rfl | rfl | ⟨r, rfl⟩
  · cases hx; exact hs
  · exact absurd rfl hi
  · rcases exec_rdreg r s with ⟨reg, -, h⟩ | ⟨-, h⟩
    · cases h.symm.trans hx; exact hs
    · cases h.symm.trans hx; rfl

/-- No other command writes both engines (R10). -/
theorem exec_keeps_an_engine {i : Instr} {s u : State} (hi : i ≠ .reset) (hx : exec i s = .next u) :
    u.enc = s.enc ∨ u.dec = s.dec := by
  by_cases he : i.isEncoder = true
  · obtain ⟨f, hf, -⟩ := exec_encoder he
    cases (hf s).symm.trans hx
    exact .inr rfl
  by_cases hd : i.isDecoder = true
  · obtain ⟨f, hf, -⟩ := exec_decoder hd
    cases (hf s).symm.trans hx
    exact .inl rfl
  · exact .inl (system_command_engines (by simpa using he) (by simpa using hd) hi hx).1

/-- Settles O2: every field of `Enc.reset` and `Dec.reset` is its reset value; another command runs in one engine or in none. -/
theorem resetCommandRestoresEveryResetValue : Obligations.ResetCommandRestoresEveryResetValue :=
  ⟨rfl, fun s => ⟨_, exec_reset s, rfl,
    Table.read_nil, rfl, rfl, rfl, rfl, rfl, rfl, rfl,
    Table.read_nil, rfl, rfl, rfl, rfl, rfl, rfl, rfl, rfl,
    rfl, rfl, rfl, fun _ _ hi hx => ⟨exec_keeps_cmderr hi hx, exec_keeps_an_engine hi hx⟩⟩⟩

/-! ### RDREG: the fields of a packed register (R36, R162) -/

/-- A bit field is the number of its bits. -/
theorem extractLsb'_eq_iff {n w : Nat} (v : BitVec n) (k : Nat) (x : BitVec w) :
    v.extractLsb' k w = x ↔ v.toNat / 2 ^ k % 2 ^ w = x.toNat := by
  rw [← BitVec.toNat_inj, BitVec.extractLsb'_toNat, Nat.shiftRight_eq_div_pow]

theorem flagWord_eq_ofBool (b : Bool) : flagWord b = (BitVec.ofBool b).setWidth 64 := by
  cases b <;> rfl

theorem value_sysStatus_fields (s : State) :
    (Reg.sysStatus.value s).extractLsb' 0 1 = BitVec.ofBool s.cmderr ∧ (Reg.sysStatus.value s).extractLsb' 1 63 = 0 := by
  simp only [extractLsb'_eq_iff, Reg.value, flagWord_eq_ofBool]
  bv_omega

theorem value_encStatus_fields (s : State) :
    (Reg.encStatus.value s).extractLsb' 0 2 = s.enc.st.code ∧ (Reg.encStatus.value s).extractLsb' 2 6 = 0 ∧
      (Reg.encStatus.value s).extractLsb' 8 8 = s.enc.ecode ∧ (Reg.encStatus.value s).extractLsb' 16 48 = 0 := by
  simp only [extractLsb'_eq_iff, Reg.value]
  bv_omega

theorem value_encBuf_fields (s : State) :
    (Reg.encBuf.value s).extractLsb' 0 8 = s.enc.acc ∧ (Reg.encBuf.value s).extractLsb' 8 3 = s.enc.fill ∧
      (Reg.encBuf.value s).extractLsb' 11 53 = 0 := by
  simp only [extractLsb'_eq_iff, Reg.value]
  bv_omega

theorem value_decStatus_fields (s : State) :
    (Reg.decStatus.value s).extractLsb' 0 2 = s.dec.st.code ∧
      (Reg.decStatus.value s).extractLsb' 2 1 = BitVec.ofBool s.dec.mid ∧ (Reg.decStatus.value s).extractLsb' 3 5 = 0 ∧
      (Reg.decStatus.value s).extractLsb' 8 8 = s.dec.ecode ∧ (Reg.decStatus.value s).extractLsb' 16 48 = 0 := by
  simp only [extractLsb'_eq_iff, Reg.value, flagWord_eq_ofBool]
  bv_omega

theorem value_decNode_fields (s : State) :
    (Reg.decNode.value s).extractLsb' 0 9 = s.dec.node ∧ (Reg.decNode.value s).extractLsb' 9 55 = 0 := by
  simp only [extractLsb'_eq_iff, Reg.value]
  bv_omega

theorem value_decRoot_fields (s : State) :
    (Reg.decRoot.value s).extractLsb' 0 9 = s.dec.root.idx ∧ (Reg.decRoot.value s).extractLsb' 9 6 = 0 ∧
      (Reg.decRoot.value s).extractLsb' 15 1 = BitVec.ofBool s.dec.root.present ∧
      (Reg.decRoot.value s).extractLsb' 16 48 = 0 := by
  simp only [extractLsb'_eq_iff, Reg.value, flagWord_eq_ofBool]
  bv_omega

/-! ### RDREG: defined and reserved numbers (R74, R162) -/

theorem exec_rdreg_defined {r : Byte} (h : r ∈ definedRegisters) (s : State) :
    ∃ reg, register? r = some reg ∧ exec (.rdreg r) s = .next (respondOk (reg.value s) s) := by
  rcases exec_rdreg r s with hx | ⟨hr, -⟩
  · exact hx
  · exact absurd h ((register?_eq_none_iff r).1 hr)

theorem exec_rdreg_undefined {r : Byte} (h : r ∉ definedRegisters) (s : State) :
    exec (.rdreg r) s = .next (illegal 0x02 s) :=
  exec_illFormed (i := .rdreg r) (Bool.eq_false_iff.2 (mt (wellFormed_rdreg_iff r).1 h)) s

/-- Settles O3: a defined number names one register; each packed register has its fields by its `value_…_fields` lemma, and the
two counts are `lengthWord`. -/
theorem registerReadReturnsTheMappedFields : Obligations.RegisterReadReturnsTheMappedFields := by
  refine fun r s => ⟨rfl, fun h => ?_, fun h => exec_rdreg_undefined h s⟩
  obtain ⟨reg, hreg, hx⟩ := exec_rdreg_defined h s
  have reads (reg' : Reg) {n : Byte} (hn : register? n = some reg') (hr : r = n) : reg'.value s = reg.value s := by
    rw [← hr, hreg] at hn
    rw [Option.some.inj hn]
  exact ⟨reg.value s, hx,
    fun hr => reads .sysStatus rfl hr ▸ value_sysStatus_fields s,
    fun hr => reads .encStatus rfl hr ▸ value_encStatus_fields s,
    fun hr => (reads .encEinfo rfl hr).symm,
    fun hr => (reads .encBitlen rfl hr).symm,
    fun hr => reads .encBuf rfl hr ▸ value_encBuf_fields s,
    fun hr hlen => reads .encOutcnt rfl hr ▸ toNat_lengthWord hlen,
    fun hr => reads .decStatus rfl hr ▸ value_decStatus_fields s,
    fun hr => (reads .decEinfo rfl hr).symm,
    fun hr => (reads .decBitcnt rfl hr).symm,
    fun hr => reads .decNode rfl hr ▸ value_decNode_fields s,
    fun hr => reads .decRoot rfl hr ▸ value_decRoot_fields s,
    fun hr hlen => reads .decOutcnt rfl hr ▸ toNat_lengthWord hlen⟩

end Sys2Proof.Machine
end

section
/-! PROOFS. The family spec/60_exceptions.md: refusals (R178), the codes produced (R170, R174), the latched error (R181) and the
ways out of it (R183). A command either is refused, and is then `illegal`, or answers a produced code other than 5; a step is
taken apart once, by `step_cases`. -/

namespace Sys2Proof.Machine

/-! ### Refused or answered (R170, R178) -/

/-- From `s` to `t` a command answered `r`, whose code is produced and is not 5, and such a code is latched in each engine. -/
structure AnswersProducedCode (s t : State) (r : Response) : Prop where
  answer : t.responses = s.responses ++ [r]
  code : r.code ∈ producedCodes ∧ r.code ≠ 5
  enc : t.enc.ecode ∈ producedCodes ∧ t.enc.ecode ≠ 5
  dec : t.dec.ecode ∈ producedCodes ∧ t.dec.ecode ≠ 5

theorem zero_produced : (0 : Byte) ∈ producedCodes ∧ (0 : Byte) ≠ 5 := by decide

/-- A success that writes no engine answers code 0. -/
theorem respondOk_answersProducedCode {s : State} (hs : s.CodesInv) (info : Word) :
    AnswersProducedCode s (respondOk info s) ⟨0, info⟩ := ⟨rfl, zero_produced, hs.enc, hs.dec⟩

theorem encoder_refused_or_answers {i : Instr} {s t : State} (hi : i.isEncoder = true) (hs : s.CodesInv)
    (hx : exec i s = .next t) : t = illegal i.opcode s ∨ ∃ r, AnswersProducedCode s t r := by
  obtain ⟨f, hf, hok⟩ := exec_encoder hi
  cases (hf s).symm.trans hx
  cases hr : (f s.enc).refused with
  | true =>
    rw [(hok s.enc).refuse hr, Bool.or_true]
    exact .inl rfl
  | false =>
    obtain ⟨hcode, hlatched⟩ := (hok s.enc).answer hr hs.enc
    exact .inr ⟨_, rfl, hcode, hlatched, hs.dec⟩

theorem decoder_refused_or_answers {i : Instr} {s t : State} (hi : i.isDecoder = true) (hs : s.CodesInv)
    (hx : exec i s = .next t) : t = illegal i.opcode s ∨ ∃ r, AnswersProducedCode s t r := by
  obtain ⟨f, hf, hok⟩ := exec_decoder hi
  cases (hf s).symm.trans hx
  cases hr : (f s.dec).refused with
  | true =>
    rw [(hok s.dec).refuse hr, Bool.or_true]
    exact .inl rfl
  | false =>
    obtain ⟨hcode, hlatched⟩ := (hok s.dec).answer hr hs.dec
    exact .inr ⟨_, rfl, hcode, hs.enc, hlatched⟩

theorem exec_refused_or_answers {i : Instr} {s t : State} (hs : s.CodesInv) (hx : exec i s = .next t) :
    t = illegal i.opcode s ∨ ∃ r, AnswersProducedCode s t r := by
  by_cases he : i.isEncoder = true
  · exact encoder_refused_or_answers he hs hx
  by_cases hd : i.isDecoder = true
  · exact decoder_refused_or_answers hd hs hx
  rcases system_command (by simpa using he) (by simpa using hd) with rfl | rfl | ⟨n, rfl⟩
  · cases (exec_nop s).symm.trans hx
    exact .inr ⟨_, respondOk_answersProducedCode hs 0⟩
  · cases (exec_reset s).symm.trans hx
    exact .inr ⟨⟨0, 0⟩, rfl, zero_produced, zero_produced, zero_produced⟩
  · rcases exec_rdreg n s with ⟨reg, -, h⟩ | ⟨-, h⟩ <;> cases h.symm.trans hx
    · exact .inr ⟨_, respondOk_answersProducedCode hs (reg.value s)⟩
    · exact .inl rfl

/-- Settles O25: a command that is not refused answers another code than 5. -/
theorem refusedCommandChangesOnlyCmderr : Obligations.RefusedCommandChangesOnlyCmderr := by
  refine ⟨fun i s t info hs hx ht => ?_, fun i s t hc hi hx => exec_keeps_cmderr hi hx hc⟩
  rcases exec_refused_or_answers hs hx with rfl | ⟨r, h⟩
  · have hinfo : info = i.opcode.setWidth 64 := by simpa using ht.symm
    exact ⟨hinfo, rfl⟩
  · have hr : r = ⟨5, info⟩ := by simpa using h.answer.symm.trans ht
    exact absurd (congrArg Response.code hr) h.code.2

/-! ### One step, and the codes it produces (R170, R174) -/

/-- Everything a step can do: hardware reset, the command fetched, the refusal of an undefined opcode, or waiting. -/
theorem step_cases {s t : State} (h : step s = .next t) :
    (s.resetIn = true ∧ t = hardwareReset s) ∨
    (∃ i n, fetch s.cmdIn = .command i n ∧ exec i (consume n s) = .next t) ∨
    (∃ op n, t = illegal op (consume n s)) ∨ t = s := by
  unfold step at h
  split at h
  next hr => cases h; exact .inl ⟨hr, rfl⟩
  next =>
    split at h
    next i n hf => exact .inr (.inl ⟨i, n, hf, h⟩)
    next op n _ => cases h; exact .inr (.inr (.inl ⟨op, n, rfl⟩))
    next => cases h; exact .inr (.inr (.inr rfl))

/-- One more response of a produced code keeps the record of responses among the produced codes. -/
theorem forall_responses_snoc {l : List Response} {r : Response} (hl : ∀ x ∈ l, x.code ∈ producedCodes)
    (hr : r.code ∈ producedCodes) : ∀ x ∈ l ++ [r], x.code ∈ producedCodes :=
  List.forall_mem_append.2 ⟨hl, List.forall_mem_singleton.2 hr⟩

theorem illegalCommand_produced : Cause.illegalCommand.code ∈ producedCodes := by decide

theorem illegal_keeps_codesInv {s : State} (hs : s.CodesInv) (op : Byte) : (illegal op s).CodesInv :=
  ⟨hs.enc, hs.dec, forall_responses_snoc hs.responses illegalCommand_produced⟩

theorem AnswersProducedCode.codesInv {s t : State} {r : Response} (h : AnswersProducedCode s t r) (hs : s.CodesInv) :
    t.CodesInv := ⟨h.enc, h.dec, h.answer ▸ forall_responses_snoc hs.responses h.code.1⟩

theorem consume_keeps_codesInv {s : State} (hs : s.CodesInv) (n : Nat) : (consume n s).CodesInv :=
  ⟨hs.enc, hs.dec, hs.responses⟩

theorem hardwareReset_keeps_codesInv {s : State} (hs : s.CodesInv) : (hardwareReset s).CodesInv :=
  ⟨zero_produced, zero_produced, hs.responses⟩

theorem exec_keeps_codesInv {i : Instr} {s t : State} (hs : s.CodesInv) (hx : exec i s = .next t) : t.CodesInv := by
  rcases exec_refused_or_answers hs hx with rfl | ⟨r, h⟩
  · exact illegal_keeps_codesInv hs _
  · exact h.codesInv hs

/-- Settles O29: each of the four things a step can do keeps the codes. -/
theorem everyStepProducesOnlyDefinedCodes : Obligations.EveryStepProducesOnlyDefinedCodes := by
  intro s t hs h
  rcases step_cases h with ⟨-, rfl⟩ | ⟨i, n, -, hx⟩ | ⟨op, n, rfl⟩ | rfl
  · exact hardwareReset_keeps_codesInv hs
  · exact exec_keeps_codesInv (consume_keeps_codesInv hs n) hx
  · exact illegal_keeps_codesInv (consume_keeps_codesInv hs n) op
  · exact hs

/-! ### The latched error is repeated; every other command succeeds (R181) -/

/-- A well-formed `CT_SET` carries the code bytes of its length (R61). -/
theorem length_codebytes_of_wellFormed {sym len : Byte} {codebytes : List Byte}
    (h : (Instr.ctSet sym len codebytes).wellFormed = true) : codebytes.length = ceilDiv8 len.toNat := by
  simp only [Instr.wellFormed, Bool.and_eq_true, beq_iff_eq] at h
  obtain ⟨⟨-, hl⟩, -⟩ := h
  exact hl

/-- `i` succeeds on `s`: it answers code 0. -/
def Succeeds (i : Instr) (s : State) : Prop :=
  ∃ (t : State) (info : Word), exec i s = .next t ∧ t.responses = s.responses ++ [⟨0, info⟩]

theorem encoder_stream_repeats {i : Instr} {s : State} (hst : s.enc.st = .error)
    (hi : (∃ sym, i = .encSym sym) ∨ i = .encFlush) : exec i s = .next (encRepeat s) := by
  rcases hi with ⟨sym, rfl⟩ | rfl
  · exact exec_encSym_error hst
  · exact exec_encFlush_error hst

theorem decoder_stream_repeats {i : Instr} {s : State} (hw : i.wellFormed = true) (hst : s.dec.st = .error)
    (hi : (∃ a, i = .decBit a) ∨ (∃ v n, i = .decByte v n) ∨ i = .decEnd) : exec i s = .next (decRepeat s) := by
  rcases hi with ⟨a, rfl⟩ | ⟨v, n, rfl⟩ | rfl
  · exact exec_decBit_error ((wellFormed_decBit_iff a).1 hw) hst
  · obtain ⟨h1, h8⟩ := (wellFormed_decByte_iff v n).1 hw
    exact exec_decByte_error h1 h8 hst
  · exact exec_decEnd_error hst

/-- With legal operands, a command that is not a stream command has one effect, a success, whatever the engines' states. -/
theorem succeeds_of_not_stream {i : Instr} (hw : i.wellFormed = true) (s : State) (hsym : ∀ sym, i ≠ .encSym sym)
    (hflush : i ≠ .encFlush) (hbit : ∀ a, i ≠ .decBit a) (hbyte : ∀ v n, i ≠ .decByte v n) (hend : i ≠ .decEnd) :
    Succeeds i s := by
  cases i with
  | nop => exact ⟨_, _, exec_nop s, rfl⟩
  | reset => exact ⟨_, _, exec_reset s, rfl⟩
  | rdreg r =>
    obtain ⟨reg, -, hx⟩ := exec_rdreg_defined ((wellFormed_rdreg_iff r).1 hw) s
    exact ⟨_, _, hx, rfl⟩
  | encInit => exact ⟨_, _, exec_encInit s, rfl⟩
  | ctClear => exact ⟨_, _, exec_ctClear s, rfl⟩
  | ctSet sym len codebytes => exact ⟨_, _, exec_ctSet_wellFormed hw (length_codebytes_of_wellFormed hw) s, rfl⟩
  | decInit => exact ⟨_, _, exec_decInit s, rfl⟩
  | treeClear => exact ⟨_, _, exec_treeClear s, rfl⟩
  | treeLeaf idx sym => exact ⟨_, _, exec_treeLeaf_legal ((legalIndex_iff idx).1 hw) sym s, rfl⟩
  | treeInt idx left right =>
    obtain ⟨h, hl, hr⟩ := (wellFormed_treeInt_iff idx left right).1 hw
    exact ⟨_, _, exec_treeInt_legal h hl hr s, rfl⟩
  | treeRoot idx => exact ⟨_, _, exec_treeRoot_legal ((legalIndex_iff idx).1 hw) s, rfl⟩
  | encSym sym => exact absurd rfl (hsym sym)
  | encFlush => exact absurd rfl hflush
  | decBit a => exact absurd rfl (hbit a)
  | decByte v n => exact absurd rfl (hbyte v n)
  | decEnd => exact absurd rfl hend

/-- Settles O27: one equation of `exec` per stream command in `ERROR` and per other command in any state. -/
theorem latchedErrorIsRepeatedByEveryStreamCommand : Obligations.LatchedErrorIsRepeatedByEveryStreamCommand :=
  fun _ s hw => ⟨encoder_stream_repeats, decoder_stream_repeats hw, succeeds_of_not_stream hw s⟩

/-! ### The ways out of `ERROR` and `DONE` (R183) -/

theorem EncSt.eq_done_or_error {st : EncSt} (h : st ≠ .streamOpen) : st = .done ∨ st = .error := by
  cases st with
  | streamOpen => exact absurd rfl h
  | done => exact .inl rfl
  | error => exact .inr rfl

theorem DecSt.eq_done_or_error {st : DecSt} (h : st ≠ .run) : st = .done ∨ st = .error := by
  cases st with
  | run => exact absurd rfl h
  | done => exact .inl rfl
  | error => exact .inr rfl

/-- Outside the encoder's commands only `RESET` writes the encoder (R10). -/
theorem exec_keeps_enc {i : Instr} {s t : State} (he : i.isEncoder = false) (hr : i ≠ .reset) (hx : exec i s = .next t) :
    t.enc = s.enc := by
  cases hd : i.isDecoder with
  | true =>
    obtain ⟨f, hf, -⟩ := exec_decoder hd
    cases (hf s).symm.trans hx
    rfl
  | false => exact (system_command_engines he hd hr hx).1

/-- Outside the decoder's commands only `RESET` writes the decoder (R10). -/
theorem exec_keeps_dec {i : Instr} {s t : State} (hd : i.isDecoder = false) (hr : i ≠ .reset) (hx : exec i s = .next t) :
    t.dec = s.dec := by
  cases he : i.isEncoder with
  | true =>
    obtain ⟨f, hf, -⟩ := exec_encoder he
    cases (hf s).symm.trans hx
    rfl
  | false => exact (system_command_engines he hd hr hx).2

/-- In a closed encoder every encoder command but `ENC_INIT` leaves `ENC_ST`: a table command writes `CT`, a stream command
writes nothing. -/
theorem encoder_keeps_closed_st {i : Instr} {s t : State} (he : i.isEncoder = true) (hw : i.wellFormed = true)
    (hi : i ≠ .encInit) (hst : s.enc.st ≠ .streamOpen) (hx : exec i s = .next t) : t.enc.st = s.enc.st := by
  have hclosed := EncSt.eq_done_or_error hst
  cases i with
  | encInit => exact absurd rfl hi
  | ctClear => cases (exec_ctClear s).symm.trans hx; rfl
  | ctSet sym len codebytes =>
    cases (exec_ctSet_wellFormed hw (length_codebytes_of_wellFormed hw) s).symm.trans hx; rfl
  | encSym sym =>
    rcases hclosed with h | h
    · cases (exec_encSym_done h).symm.trans hx; rfl
    · cases (exec_encSym_error h).symm.trans hx; rfl
  | encFlush =>
    rcases hclosed with h | h
    · cases (exec_encFlush_done h).symm.trans hx; rfl
    · cases (exec_encFlush_error h).symm.trans hx; rfl
  | _ => simp [Instr.isEncoder] at he

/-- In a closed decoder every decoder command but `DEC_INIT` leaves `DEC_ST`: a table command writes `TREE` or `ROOT`, a stream
command writes nothing. -/
theorem decoder_keeps_closed_st {i : Instr} {s t : State} (hd : i.isDecoder = true) (hw : i.wellFormed = true)
    (hi : i ≠ .decInit) (hst : s.dec.st ≠ .run) (hx : exec i s = .next t) : t.dec.st = s.dec.st := by
  have hclosed := DecSt.eq_done_or_error hst
  cases i with
  | decInit => exact absurd rfl hi
  | treeClear => cases (exec_treeClear s).symm.trans hx; rfl
  | treeLeaf idx sym => cases (exec_treeLeaf_legal ((legalIndex_iff idx).1 hw) sym s).symm.trans hx; rfl
  | treeInt idx left right =>
    obtain ⟨h, hl, hr⟩ := (wellFormed_treeInt_iff idx left right).1 hw
    cases (exec_treeInt_legal h hl hr s).symm.trans hx; rfl
  | treeRoot idx => cases (exec_treeRoot_legal ((legalIndex_iff idx).1 hw) s).symm.trans hx; rfl
  | decBit a =>
    have ha := (wellFormed_decBit_iff a).1 hw
    rcases hclosed with h | h
    · cases (exec_decBit_done ha h).symm.trans hx; rfl
    · cases (exec_decBit_error ha h).symm.trans hx; rfl
  | decByte v n =>
    obtain ⟨h1, h8⟩ := (wellFormed_decByte_iff v n).1 hw
    rcases hclosed with h | h
    · cases (exec_decByte_done h1 h8 h).symm.trans hx; rfl
    · cases (exec_decByte_error h1 h8 h).symm.trans hx; rfl
  | decEnd =>
    rcases hclosed with h | h
    · cases (exec_decEnd_done h).symm.trans hx; rfl
    · cases (exec_decEnd_error h).symm.trans hx; rfl
  | _ => simp [Instr.isDecoder] at hd

theorem exec_illFormed_keeps_engines {i : Instr} {s t : State} (hw : i.wellFormed = false) (hx : exec i s = .next t) :
    t.enc = s.enc ∧ t.dec = s.dec := by
  cases (exec_illFormed hw s).symm.trans hx
  exact ⟨rfl, rfl⟩

/-- A command that changes the state field of a closed encoder is `ENC_INIT` or `RESET`. -/
theorem encInit_or_reset_of_st_changed {i : Instr} {s t : State} (hst : s.enc.st ≠ .streamOpen)
    (hch : t.enc.st ≠ s.enc.st) (hx : exec i s = .next t) : i = .encInit ∨ i = .reset := by
  by_contra! ⟨hi, hr⟩
  refine hch ?_
  cases hw : i.wellFormed with
  | false => rw [(exec_illFormed_keeps_engines hw hx).1]
  | true =>
    cases he : i.isEncoder with
    | false => rw [exec_keeps_enc he hr hx]
    | true => exact encoder_keeps_closed_st he hw hi hst hx

/-- A command that changes the state field of a closed decoder is `DEC_INIT` or `RESET`. -/
theorem decInit_or_reset_of_st_changed {i : Instr} {s t : State} (hst : s.dec.st ≠ .run)
    (hch : t.dec.st ≠ s.dec.st) (hx : exec i s = .next t) : i = .decInit ∨ i = .reset := by
  by_contra! ⟨hi, hr⟩
  refine hch ?_
  cases hw : i.wellFormed with
  | false => rw [(exec_illFormed_keeps_engines hw hx).2]
  | true =>
    cases hd : i.isDecoder with
    | false => rw [exec_keeps_dec hd hr hx]
    | true => exact decoder_keeps_closed_st hd hw hi hst hx

theorem decode_of_fetch {bytes : List Byte} {i : Instr} {n : Nat} (hf : fetch bytes = .command i n)
    (hw : i.wellFormed = true) : decode bytes = .command i n := by
  simp only [decode, hf, hw, if_true]

theorem step_reopens_encoder {s t : State} (h : step s = .next t) (hst : s.enc.st ≠ .streamOpen)
    (hch : t.enc.st ≠ s.enc.st) :
    t.enc.st = .streamOpen ∧ t.enc.ecode = 0 ∧ t.enc.einfo = 0 ∧ t.enc.bitlen = 0 ∧ t.enc.out = [] ∧
    (s.resetIn = true ∨ ∃ n, decode s.cmdIn = .command .encInit n ∨ decode s.cmdIn = .command .reset n) := by
  rcases step_cases h with ⟨hr, rfl⟩ | ⟨i, n, hf, hx⟩ | ⟨op, n, rfl⟩ | rfl
  · exact ⟨rfl, rfl, rfl, rfl, rfl, .inl hr⟩
  · obtain rfl | rfl := encInit_or_reset_of_st_changed (s := consume n s) hst hch hx
    · cases (exec_encInit _).symm.trans hx
      exact ⟨rfl, rfl, rfl, rfl, rfl, .inr ⟨n, .inl (decode_of_fetch hf rfl)⟩⟩
    · cases (exec_reset _).symm.trans hx
      exact ⟨rfl, rfl, rfl, rfl, rfl, .inr ⟨n, .inr (decode_of_fetch hf rfl)⟩⟩
  · exact absurd rfl hch
  · exact absurd rfl hch

theorem step_reopens_decoder {s t : State} (h : step s = .next t) (hst : s.dec.st ≠ .run)
    (hch : t.dec.st ≠ s.dec.st) :
    t.dec.st = .run ∧ t.dec.ecode = 0 ∧ t.dec.einfo = 0 ∧ t.dec.bitcnt = 0 ∧ t.dec.out = [] ∧
    (s.resetIn = true ∨ ∃ n, decode s.cmdIn = .command .decInit n ∨ decode s.cmdIn = .command .reset n) := by
  rcases step_cases h with ⟨hr, rfl⟩ | ⟨i, n, hf, hx⟩ | ⟨op, n, rfl⟩ | rfl
  · exact ⟨rfl, rfl, rfl, rfl, rfl, .inl hr⟩
  · obtain rfl | rfl := decInit_or_reset_of_st_changed (s := consume n s) hst hch hx
    · cases (exec_decInit _).symm.trans hx
      exact ⟨rfl, rfl, rfl, rfl, rfl, .inr ⟨n, .inl (decode_of_fetch hf rfl)⟩⟩
    · cases (exec_reset _).symm.trans hx
      exact ⟨rfl, rfl, rfl, rfl, rfl, .inr ⟨n, .inr (decode_of_fetch hf rfl)⟩⟩
  · exact absurd rfl hch
  · exact absurd rfl hch

/-- Settles O28: of the things a step can do, only hardware reset and the commands named write a closed engine's state field. -/
theorem onlyInitOrResetReopensAnEngine : Obligations.OnlyInitOrResetReopensAnEngine :=
  fun _ _ h => ⟨step_reopens_encoder h, step_reopens_decoder h⟩

end Sys2Proof.Machine
end

section
/-! PROOFS. The encoding, both ways (spec/30_encoding.md R60 to R63): what `encode` writes is fetched as the command it came from,
and what is fetched is what `encode` writes, row by row of the opcode map. With it the worked encodings (R80, R82), the beginnings
of a command (R75), the response record (R78) and the `CT_SET` terms that no bytes decode to (assumption 7). -/

namespace Sys2Proof

/-! ### What `fetch` and `decode` answer -/

/-- What is fetched as a command is what the row of the head byte reads, from at least as many bytes as its length. -/
theorem fetch_command {bytes : List Byte} {i : Instr} {n : Nat} (h : fetch bytes = .command i n) :
    ∃ op bs row, bytes = op :: bs ∧ opcodeRow? op = some row ∧ row.format.length? bytes = some n ∧
      n ≤ bytes.length ∧ i = row.read bytes := by
  unfold fetch at h
  split at h
  next => cases h
  next op bs =>
    split at h
    next => cases h
    next row hrow =>
      split at h
      next => cases h
      next m hm =>
        split at h
        next => cases h
        next hlong =>
          cases h
          exact ⟨op, bs, row, rfl, hrow, hm, Nat.not_lt.1 hlong, rfl⟩

/-- Only an undefined opcode is fetched as illegal, at one byte (R73). -/
theorem fetch_illegal {bytes : List Byte} {op : Byte} {n : Nat} (h : fetch bytes = .illegal op n) :
    bytes.head? = some op ∧ n = 1 := by
  unfold fetch at h
  split at h
  next => cases h
  next op' bs =>
    split at h
    next => cases h; exact ⟨rfl, rfl⟩
    next row hrow =>
      split at h
      next => cases h
      next m hm => split at h <;> cases h

theorem decode_eq_command_iff {bytes : List Byte} {i : Instr} {n : Nat} :
    decode bytes = .command i n ↔ fetch bytes = .command i n ∧ i.wellFormed = true := by
  unfold decode
  cases fetch bytes with
  | command j m =>
    dsimp only
    split
    next hw =>
      rw [Verdict.command.injEq]
      exact ⟨fun h => ⟨h, h.1 ▸ hw⟩, And.left⟩
    next hw => exact ⟨nofun, by rintro ⟨⟨⟩, h⟩; exact absurd h hw⟩
  | illegal op m => exact ⟨nofun, nofun⟩
  | incomplete => exact ⟨nofun, nofun⟩

/-- An illegal command is an undefined opcode or a defined one with an illegal operand (R73, R74). -/
theorem decode_illegal {bytes : List Byte} {op : Byte} {n : Nat} (h : decode bytes = .illegal op n) :
    fetch bytes = .illegal op n ∨ ∃ i, fetch bytes = .command i n ∧ i.wellFormed = false ∧ op = i.opcode := by
  unfold decode at h
  split at h
  next i m hf =>
    split at h
    next => cases h
    next hw => cases h; exact .inr ⟨i, hf, Bool.eq_false_iff.2 hw, rfl⟩
  next hf => cases h; exact .inl hf
  next => cases h

/-! ### What is fetched is what `encode` writes -/

/-- A row of the opcode map is faithful when the command it reads is written back as the bytes it was read from. -/
def OpcodeRow.Faithful (row : OpcodeRow) : Prop :=
  ∀ (bs : List Byte) (n : Nat), row.format.length? (row.opcode :: bs) = some n → n ≤ (row.opcode :: bs).length →
    encode (row.read (row.opcode :: bs)) = (row.opcode :: bs).take n

theorem faithful_Z {op : Byte} {i : Instr} (h : encode i = [op]) : OpcodeRow.Faithful ⟨op, .Z, fun _ => i⟩ := by
  rintro bs n ⟨⟩ -
  exact h

theorem faithful_B {op : Byte} {f : Byte → Instr} (h : ∀ a, encode (f a) = [op, a]) :
    OpcodeRow.Faithful ⟨op, .B, fun b => f (b.getD 1 0)⟩ := by
  rintro bs n ⟨⟩ hn
  match bs, hn with
  | a :: _, _ => exact h a

theorem faithful_DB {op : Byte} {f : Byte → Byte → Instr} (h : ∀ a b, encode (f a b) = [op, a, b]) :
    OpcodeRow.Faithful ⟨op, .DB, fun b => f (b.getD 1 0) (b.getD 2 0)⟩ := by
  rintro bs n ⟨⟩ hn
  match bs, hn with
  | a :: b :: _, _ => exact h a b

theorem faithful_TR {op : Byte} {f : BitVec 16 → Instr} (h : ∀ v, encode (f v) = [op, hiByte v, loByte v]) :
    OpcodeRow.Faithful ⟨op, .TR, fun b => f (field16 b 1)⟩ := by
  rintro bs n ⟨⟩ hn
  match bs, hn with
  | a :: b :: _, _ =>
    refine (h (a ++ b)).trans ?_
    rw [hiByte_append, loByte_append]
    rfl

theorem faithful_TL {op : Byte} {f : BitVec 16 → Byte → Instr} (h : ∀ v c, encode (f v c) = [op, hiByte v, loByte v, c]) :
    OpcodeRow.Faithful ⟨op, .TL, fun b => f (field16 b 1) (b.getD 3 0)⟩ := by
  rintro bs n ⟨⟩ hn
  match bs, hn with
  | a :: b :: c :: _, _ =>
    refine (h (a ++ b) c).trans ?_
    rw [hiByte_append, loByte_append]
    rfl

theorem faithful_TI {op : Byte} {f : BitVec 16 → BitVec 16 → BitVec 16 → Instr}
    (h : ∀ u v w, encode (f u v w) = [op, hiByte u, loByte u, hiByte v, loByte v, hiByte w, loByte w]) :
    OpcodeRow.Faithful ⟨op, .TI, fun b => f (field16 b 1) (field16 b 3) (field16 b 5)⟩ := by
  rintro bs n ⟨⟩ hn
  match bs, hn with
  | a :: b :: c :: d :: e :: g :: _, _ =>
    refine (h (a ++ b) (c ++ d) (e ++ g)).trans ?_
    simp only [hiByte_append, loByte_append]
    rfl

theorem faithful_CT {op : Byte} {f : Byte → Byte → List Byte → Instr}
    (h : ∀ a len code, encode (f a len code) = op :: a :: len :: code) :
    OpcodeRow.Faithful ⟨op, .CT, fun b => f (b.getD 1 0) (b.getD 2 0) ((b.drop 3).take (ceilDiv8 (b.getD 2 0).toNat))⟩ := by
  rintro bs n hlen -
  match bs, hlen with
  | a :: len :: code, hlen =>
    obtain rfl : 3 + ceilDiv8 len.toNat = n := Option.some.inj hlen
    refine (h a len _).trans ?_
    rw [Nat.add_comm 3]
    rfl

theorem opcodeRows_faithful : ∀ row ∈ opcodeRows, row.Faithful := by
  simp only [opcodeRows, List.forall_mem_cons]
  exact ⟨faithful_Z rfl, faithful_Z rfl, faithful_B fun _ => rfl, faithful_Z rfl, faithful_Z rfl,
    faithful_CT fun _ _ _ => rfl, faithful_B fun _ => rfl, faithful_Z rfl, faithful_Z rfl, faithful_Z rfl,
    faithful_TL fun _ _ => rfl, faithful_TI fun _ _ _ => rfl, faithful_TR fun _ => rfl, faithful_B fun _ => rfl,
    faithful_DB fun _ _ => rfl, faithful_Z rfl, nofun⟩

/-- A command is fetched from its own bytes, whatever follows them. -/
theorem encode_of_fetch {bytes : List Byte} {i : Instr} {n : Nat} (h : fetch bytes = .command i n) :
    n = (encode i).length ∧ encode i = bytes.take n := by
  obtain ⟨op, bs, row, rfl, hrow, hlen, hn, rfl⟩ := fetch_command h
  obtain rfl : row.opcode = op := by simpa using List.find?_some hrow
  have htake := opcodeRows_faithful row (List.mem_of_find?_eq_some hrow) bs n hlen hn
  exact ⟨by rw [htake, List.length_take, Nat.min_eq_left hn], htake⟩

theorem encode_prefix_of_fetch {bytes : List Byte} {i : Instr} {n : Nat} (h : fetch bytes = .command i n) :
    encode i <+: bytes := (encode_of_fetch h).2 ▸ List.take_prefix n bytes

/-- A fetched command is one of the wire: a `CT_SET` has the code bytes of its length (R61). -/
theorem Instr.OnWire.of_fetch {bytes : List Byte} {i : Instr} {n : Nat} (h : fetch bytes = .command i n) : i.OnWire := by
  rintro sym len codebytes rfl
  obtain ⟨hn, hbytes⟩ := encode_of_fetch h
  obtain ⟨op, bs, row, rfl, hrow, hlen, hle, -⟩ := fetch_command h
  match n, bs, hbytes, hle with
  | m + 3, a :: b :: bs, hbytes, _ =>
    simp only [encode, Instr.opcode, Instr.operandBytes, List.take_succ_cons, List.cons.injEq] at hbytes
    obtain ⟨rfl, -, rfl, -⟩ := hbytes
    cases hrow
    have h3 : 3 + ceilDiv8 len.toNat = m + 3 := Option.some.inj hlen
    have hcount : m + 3 = codebytes.length + 3 := hn
    omega

/-! ### The round trips -/

theorem Instr.OnWire.of_wellFormed {i : Instr} (h : i.wellFormed = true) : i.OnWire := by
  rintro sym len codebytes rfl
  exact Machine.length_codebytes_of_wellFormed h

/-- Settles O38: the bytes of a command are fetched as it, and `decode` looks at nothing else than its operands' legality. -/
theorem decodeOfEncodeIsTheCommand : Obligations.DecodeOfEncodeIsTheCommand := fun _ rest hw =>
  decode_eq_command_iff.2 ⟨(Instr.OnWire.of_wellFormed hw).fetch_encode rest, hw⟩

/-- Settles O39: every row of the opcode map writes back the bytes it reads. -/
theorem encodeOfDecodeIsTheBytes : Obligations.EncodeOfDecodeIsTheBytes := by
  intro bytes i n h
  obtain ⟨hf, hw⟩ := decode_eq_command_iff.1 h
  exact ⟨hw, (encode_of_fetch hf).1, encode_prefix_of_fetch hf⟩

/-! ### Cut-short commands (R75) -/

/-- From fewer bytes the length of a command is the same or not known yet. -/
theorem Format.length?_take_cases (f : Format) (bytes : List Byte) (k : Nat) :
    f.length? (bytes.take k) = none ∨ f.length? (bytes.take k) = f.length? bytes := by
  cases f with
  | CT =>
    rw [Format.length?, Format.length?, List.getElem?_take]
    split
    next => exact .inr rfl
    next => exact .inl rfl
  | _ => exact .inr rfl

/-- Settles O40: the opcode's row, if the byte is there, asks for more bytes than there are, or for the length byte. -/
theorem cutShortCommandIsIncomplete : Obligations.CutShortCommandIsIncomplete := by
  intro i k hw hk
  rw [decode_eq_incomplete_iff]
  match k with
  | 0 => rfl
  | m + 1 =>
    obtain ⟨row, hrow, -, hlen⟩ := (Instr.OnWire.of_wellFormed hw).readBack []
    rw [List.append_nil] at hlen
    have hshort : ((encode i).take (m + 1)).length < (encode i).length := by rw [List.length_take]; omega
    have hcases := row.format.length?_take_cases (encode i) (m + 1)
    rw [show (encode i).take (m + 1) = i.opcode :: i.operandBytes.take m from rfl] at hcases hshort ⊢
    rcases hcases with h | h
    · simp only [fetch, hrow, h]
    · simp only [fetch, hrow, h.trans hlen, if_pos hshort]

/-! ### Worked encodings (R82) -/

/-- Settles O42: each is computed. -/
theorem workedEncodingsDecode : Obligations.WorkedEncodingsDecode := by
  unfold Obligations.WorkedEncodingsDecode
  decide

end Sys2Proof

namespace Sys2Proof.Machine

/-- Settles O43: each is computed. -/
theorem workedListingsAssemble : Obligations.WorkedListingsAssemble := by
  unfold Obligations.WorkedListingsAssemble
  decide

/-! ### The response record (R78) -/

/-- Settles O44: byte `k + 1` is the field of the information word that starts at bit `8 * (7 - k)`. -/
theorem responseIsNineBytesBigEndian : Obligations.ResponseIsNineBytesBigEndian := by
  refine ⟨fun r => ⟨rfl, rfl, fun k hk => ?_⟩, by decide, by decide⟩
  interval_cases k <;> rfl

/-! ### CT_SET terms without a wire form (assumption 7) -/

/-- Settles O59: fetched commands are commands of the wire, and the meaning of `CT_SET` tests the number of its code bytes. -/
theorem ctSetTermWithoutAWireFormIsRefused : Obligations.CtSetTermWithoutAWireFormIsRefused := by
  intro sym len codebytes hl
  refine ⟨fun bytes n hf => hl (Instr.OnWire.of_fetch hf sym len codebytes rfl), fun s => ?_⟩
  exact exec_illFormed (i := .ctSet sym len codebytes)
    (Bool.eq_false_iff.2 fun hw => hl (length_codebytes_of_wellFormed hw)) s

end Sys2Proof.Machine
end

section
/-! PROOFS. The invariant (spec/10_state.md R39): each operation on an engine keeps the engine's part of it, so each command does, and
so does every step. -/

namespace Sys2Proof.Machine

/-! ### The reset values (R38) -/

theorem Enc.Inv.reset : Enc.reset.Inv :=
  ⟨Table.wf_empty _, nofun, fun _ => ⟨rfl, rfl⟩, fun _ _ => BitVec.getLsbD_zero, fun _ => ⟨rfl, rfl⟩, nofun⟩

theorem Dec.Inv.reset : Dec.reset.Inv :=
  ⟨Table.wf_empty _, nofun, Nat.zero_le _, fun _ => rfl, Nat.zero_le _, fun _ => ⟨rfl, rfl⟩, nofun, Nat.le_refl _⟩

/-- Settles O45: the tables are empty, every other field is 0, and code 0 is one the block produces. -/
theorem resetStateSatisfiesTheInvariant : Obligations.ResetStateSatisfiesTheInvariant :=
  ⟨⟨Enc.Inv.reset, Dec.Inv.reset⟩, ⟨zero_produced, zero_produced, nofun⟩⟩

/-! ### Operations on the encoder -/

theorem Enc.Inv.initState {e : Enc} (h : e.Inv) : e.initState.Inv :=
  ⟨h.ct_wf, h.entries, fun _ => ⟨rfl, rfl⟩, fun _ _ => BitVec.getLsbD_zero, fun _ => by simp, nofun⟩

/-- The clauses about the stream do not look at `CT`. -/
theorem Enc.Inv.with_ct {e : Enc} (h : e.Inv) {ct : Table CodeEntry} (hwf : ct.wf Config.numSymbols)
    (he : ∀ p ∈ ct, p.2.inv) : Enc.Inv { e with ct := ct } :=
  ⟨hwf, he, h.no_error, h.acc_low, h.counts, h.closed⟩

theorem Enc.Inv.write_ct {e : Enc} (h : e.Inv) (sym : Byte) {c : CodeEntry} (hc : c.inv) :
    Enc.Inv { e with ct := e.ct.write sym.toNat c } :=
  h.with_ct (Table.wf_write c sym.isLt h.ct_wf) fun p hp => by
    rcases Table.mem_write hp with rfl | hp
    · exact hc
    · exact h.entries p hp

/-- Error entry in an open stream keeps the invariant: the stream's registers keep their values (R39 (b), (d)). -/
theorem Enc.Inv.latch {e : Enc} (h : e.Inv) (hst : e.st ≠ .done) (r : Raised) : (e.latch r).Inv :=
  ⟨h.ct_wf, h.entries, fun he => absurd rfl he, h.acc_low, fun _ => h.counts hst, nofun⟩

/-! ### Operations on the decoder -/

theorem Dec.Inv.initState {d : Dec} (h : d.Inv) : d.initState.Inv :=
  ⟨h.tree_wf, h.entries, h.root_idx, h.root_absent, h.root_idx, fun _ => ⟨rfl, rfl⟩, fun _ => rfl, Nat.le_refl _⟩

/-- The clauses about the stream do not look at `TREE`. -/
theorem Dec.Inv.with_tree {d : Dec} (h : d.Inv) {tree : Table Node} (hwf : tree.wf Config.numNodes)
    (he : ∀ p ∈ tree, p.2.inv) : Dec.Inv { d with tree := tree } :=
  ⟨hwf, he, h.root_idx, h.root_absent, h.node_idx, h.no_error, h.closed, h.counts⟩

theorem Dec.Inv.write_tree {d : Dec} (h : d.Inv) {k : Nat} (hk : k ≤ 510) {n : Node} (hn : n.inv) :
    Dec.Inv { d with tree := d.tree.write k n } :=
  h.with_tree (Table.wf_write n (Nat.lt_succ_of_le hk) h.tree_wf) fun p hp => by
    rcases Table.mem_write hp with rfl | hp
    · exact hn
    · exact h.entries p hp

/-- The clauses about the stream do not look at `ROOT`: `NODE` is kept when the root is named anew. -/
theorem Dec.Inv.with_root {d : Dec} (h : d.Inv) {root : Root} (hi : root.idx.toNat ≤ 510)
    (ha : root.present = false → root.idx = 0) : Dec.Inv { d with root := root } :=
  ⟨h.tree_wf, h.entries, hi, ha, h.node_idx, h.no_error, h.closed, h.counts⟩

/-- `DONE` is entered between two symbols only (R39 (g)). -/
theorem Dec.Inv.close {d : Dec} (h : d.Inv) (hst : d.st = .run) (hm : d.mid = false) : Dec.Inv { d with st := .done } :=
  ⟨h.tree_wf, h.entries, h.root_idx, h.root_absent, h.node_idx, fun _ => h.no_error (by simp [hst]), fun _ => hm, h.counts⟩

/-- Consuming bits in `RUN` keeps the invariant, whether a bit raises or not. -/
theorem decConsume_keeps_inv {s : State} (h : s.Inv) (hst : s.dec.st = .run) (w : Bits) : (decConsume w s).Inv := by
  have hfeed : (s.dec.feed w).1.Inv := h.dec.feed hst
  rcases hf : s.dec.feed w with ⟨d, _ | r⟩ <;> rw [hf] at hfeed
  · rw [decConsume_ok hf]
    exact ⟨h.enc, hfeed⟩
  · rw [decConsume_raised hf]
    exact ⟨h.enc, hfeed.latch r⟩

/-! ### Commands -/

theorem encSym_keeps_inv {sym : Byte} {s t : State} (h : s.Inv) (hx : exec (.encSym sym) s = .next t) : t.Inv := by
  cases hst : s.enc.st with
  | error => cases (exec_encSym_error hst).symm.trans hx; exact ⟨h.enc, h.dec⟩
  | done => cases (exec_encSym_done hst).symm.trans hx; exact ⟨h.enc, h.dec⟩
  | streamOpen =>
    have hopen : s.enc.st ≠ .done := by simp [hst]
    cases hr : s.enc.ct.read sym.toNat with
    | none => cases (exec_encSym_missing hst hr).symm.trans hx; exact ⟨h.enc.latch hopen _, h.dec⟩
    | some e =>
      rcases Nat.lt_or_ge Config.maxCount (s.enc.bitlen.toNat + e.code.length) with hl | hl
      · cases (exec_encSym_overflow hst hr hl).symm.trans hx; exact ⟨h.enc.latch hopen _, h.dec⟩
      · cases (exec_encSym_open hst hr hl).symm.trans hx; exact ⟨h.enc.pushBits hst hl, h.dec⟩

theorem encFlush_keeps_inv {s t : State} (h : s.Inv) (hx : exec .encFlush s = .next t) : t.Inv := by
  cases hst : s.enc.st with
  | error => cases (exec_encFlush_error hst).symm.trans hx; exact ⟨h.enc, h.dec⟩
  | done => cases (exec_encFlush_done hst).symm.trans hx; exact ⟨h.enc, h.dec⟩
  | streamOpen => cases (exec_encFlush_streamOpen hst).symm.trans hx; exact ⟨h.enc.flush hst, h.dec⟩

theorem decBit_keeps_inv {a : Byte} {s t : State} (hw : (Instr.decBit a).wellFormed = true) (h : s.Inv)
    (hx : exec (.decBit a) s = .next t) : t.Inv := by
  have ha := (wellFormed_decBit_iff a).1 hw
  cases hst : s.dec.st with
  | error => cases (exec_decBit_error ha hst).symm.trans hx; exact ⟨h.enc, h.dec⟩
  | done => cases (exec_decBit_done ha hst).symm.trans hx; exact ⟨h.enc, h.dec⟩
  | run => cases (exec_decBit_run ha hst).symm.trans hx; exact decConsume_keeps_inv h hst _

theorem decByte_keeps_inv {v n : Byte} {s t : State} (hw : (Instr.decByte v n).wellFormed = true) (h : s.Inv)
    (hx : exec (.decByte v n) s = .next t) : t.Inv := by
  obtain ⟨h1, h8⟩ := (wellFormed_decByte_iff v n).1 hw
  cases hst : s.dec.st with
  | error => cases (exec_decByte_error h1 h8 hst).symm.trans hx; exact ⟨h.enc, h.dec⟩
  | done => cases (exec_decByte_done h1 h8 hst).symm.trans hx; exact ⟨h.enc, h.dec⟩
  | run => cases (exec_decByte_run h1 h8 hst).symm.trans hx; exact decConsume_keeps_inv h hst _

theorem decEnd_keeps_inv {s t : State} (h : s.Inv) (hx : exec .decEnd s = .next t) : t.Inv := by
  cases hst : s.dec.st with
  | error => cases (exec_decEnd_error hst).symm.trans hx; exact ⟨h.enc, h.dec⟩
  | done => cases (exec_decEnd_done hst).symm.trans hx; exact ⟨h.enc, h.dec⟩
  | run =>
    cases hm : s.dec.mid with
    | true => cases (exec_decEnd_mid hst hm).symm.trans hx; exact ⟨h.enc, h.dec.latch _⟩
    | false => cases (exec_decEnd_run hst hm).symm.trans hx; exact ⟨h.enc, h.dec.close hst hm⟩

theorem ctSet_keeps_inv {sym len : Byte} {codebytes : List Byte} {s t : State}
    (hw : (Instr.ctSet sym len codebytes).wellFormed = true) (h : s.Inv)
    (hx : exec (.ctSet sym len codebytes) s = .next t) : t.Inv := by
  have hl := length_codebytes_of_wellFormed hw
  obtain ⟨hpos, hmax, -⟩ := (wellFormed_ctSet_iff hl).1 hw
  cases (exec_ctSet_wellFormed hw hl s).symm.trans hx
  exact ⟨h.enc.write_ct sym (by simpa [CodeEntry.inv, CodeEntry.len] using ⟨hpos, hmax⟩), h.dec⟩

/-- A command with legal operands keeps the invariant. -/
theorem exec_wellFormed_keeps_inv {i : Instr} {s t : State} (hw : i.wellFormed = true) (h : s.Inv)
    (hx : exec i s = .next t) : t.Inv := by
  cases i with
  | nop => cases (exec_nop s).symm.trans hx; exact ⟨h.enc, h.dec⟩
  | reset => cases (exec_reset s).symm.trans hx; exact ⟨Enc.Inv.reset, Dec.Inv.reset⟩
  | rdreg r =>
    obtain ⟨he, hd⟩ := system_command_engines (i := .rdreg r) rfl rfl nofun hx
    exact ⟨he ▸ h.enc, hd ▸ h.dec⟩
  | encInit => cases (exec_encInit s).symm.trans hx; exact ⟨h.enc.initState, h.dec⟩
  | ctClear => cases (exec_ctClear s).symm.trans hx; exact ⟨h.enc.with_ct (Table.wf_empty _) nofun, h.dec⟩
  | ctSet sym len codebytes => exact ctSet_keeps_inv hw h hx
  | encSym sym => exact encSym_keeps_inv h hx
  | encFlush => exact encFlush_keeps_inv h hx
  | decInit => cases (exec_decInit s).symm.trans hx; exact ⟨h.enc, h.dec.initState⟩
  | treeClear =>
    cases (exec_treeClear s).symm.trans hx
    exact ⟨h.enc, (h.dec.with_tree (Table.wf_empty _) nofun).with_root (Nat.zero_le _) fun _ => rfl⟩
  | treeLeaf idx sym =>
    have hi := (legalIndex_iff idx).1 hw
    cases (exec_treeLeaf_legal hi sym s).symm.trans hx
    exact ⟨h.enc, h.dec.write_tree hi trivial⟩
  | treeInt idx left right =>
    obtain ⟨hi, hl, hr⟩ := (wellFormed_treeInt_iff idx left right).1 hw
    cases (exec_treeInt_legal hi hl hr s).symm.trans hx
    exact ⟨h.enc, h.dec.write_tree hi ⟨(treeIndex?_legal hl).2 ▸ hl, (treeIndex?_legal hr).2 ▸ hr⟩⟩
  | treeRoot idx =>
    have hi := (legalIndex_iff idx).1 hw
    cases (exec_treeRoot_legal hi s).symm.trans hx
    exact ⟨h.enc, h.dec.with_root ((treeIndex?_legal hi).2 ▸ hi) nofun⟩
  | decBit a => exact decBit_keeps_inv hw h hx
  | decByte v n => exact decByte_keeps_inv hw h hx
  | decEnd => exact decEnd_keeps_inv h hx

theorem exec_keeps_inv {i : Instr} {s t : State} (h : s.Inv) (hx : exec i s = .next t) : t.Inv := by
  cases hw : i.wellFormed with
  | false =>
    obtain ⟨he, hd⟩ := exec_illFormed_keeps_engines hw hx
    exact ⟨he ▸ h.enc, hd ▸ h.dec⟩
  | true => exact exec_wellFormed_keeps_inv hw h hx

/-- Settles O46: hardware reset gives the reset values, a command keeps the invariant, the other steps write no engine. -/
theorem everyStepKeepsTheInvariant : Obligations.EveryStepKeepsTheInvariant := by
  intro s t hs h
  rcases step_cases h with ⟨-, rfl⟩ | ⟨i, n, -, hx⟩ | ⟨op, n, rfl⟩ | rfl
  · exact ⟨Enc.Inv.reset, Dec.Inv.reset⟩
  · exact exec_keeps_inv (s := consume n s) ⟨hs.enc, hs.dec⟩ hx
  · exact ⟨hs.enc, hs.dec⟩
  · exact hs

end Sys2Proof.Machine
end

section
/-! PROOFS. Single commands: the registers at reset (spec/10_state.md R36), the stream bits after `ENC_SYM` (spec/20_memory.md R41),
`DEC_BYTE` against `DEC_BIT` (spec/42_decoder.md R138), the order of two commands and the one response of each (spec/20_memory.md
R50, R51). -/

namespace Sys2Proof.Machine

/-! ### Registers at reset (R36) -/

theorem value_reset (reg : Reg) : reg.value State.reset = 0 := by
  cases reg <;> rfl

/-- Settles O4: a defined number names a register, and each holds 0 at reset. -/
theorem everyRegisterReadsZeroAfterReset : Obligations.EveryRegisterReadsZeroAfterReset := by
  intro r hr
  obtain ⟨reg, -, hx⟩ := exec_rdreg_defined hr State.reset
  rw [hx, value_reset]
  rfl

/-! ### ENC_SYM and the stream bits (R20, R23, R41) -/

/-- Settles O10: `ENC_SYM` pushes the code word, and pushing bits appends them to the stream. -/
theorem encSymAppendsItsCodeWordToTheStream : Obligations.EncSymAppendsItsCodeWordToTheStream := fun _ s e hst hr hl =>
  ⟨_, exec_encSym_open hst hr hl, s.enc.streamBits_pushBits e.code, s.enc.out_prefix_pushBits e.code,
    s.enc.pushBits_fill e.code⟩

/-! ### DEC_BYTE (R138) -/

/-- The `DEC_BIT`s of the top bits of a byte. -/
theorem map_decBit_topBits (v : Byte) (n : Nat) :
    ((List.range n).map fun k => Instr.decBit (if v.getLsbD (7 - k) then 1 else 0)) =
      (topBits v n).map fun b => .decBit (if b then 1 else 0) := by
  simp [topBits, Function.comp_def]

/-- Settles O21: both feed the top bits to the decoder; the first failure is the error that feeding raises. -/
theorem decByteIsThatManyDecBits : Obligations.DecByteIsThatManyDecBits := by
  intro v n s h1 h8 hst
  obtain ⟨rs, hrun, hlen, hfirst⟩ := execAll_decBits (topBits v n.toNat) s hst
  refine ⟨_, rs, (map_decBit_topBits v n.toNat).symm ▸ hrun, rfl, hlen.trans (length_topBits v n.toNat), ?_⟩
  rw [exec_decByte_run h1 h8 hst, decConsume_effect, hfirst]
  cases (s.dec.feed (topBits v n.toNat)).2 <;> rfl

theorem topBits_congr {v w : Byte} {n : Nat} (h : ∀ k, k < n → v.getLsbD (7 - k) = w.getLsbD (7 - k)) :
    topBits v n = topBits w n :=
  List.map_congr_left fun k hk => h k (List.mem_range.1 hk)

/-- Settles O22: `DEC_BYTE` reads its byte by `topBits` alone. -/
theorem decByteIgnoresTheUnusedLowBits : Obligations.DecByteIgnoresTheUnusedLowBits := by
  intro v w n s h
  have hbits : streamBits? v n = streamBits? w n := by simp only [streamBits?, topBits_congr h]
  simp only [exec, execDecByte, hbits]

/-! ### Two commands of different engines, one response each (R50, R51) -/

/-- Settles O31: each command's effect is a function of its own engine, which the other command leaves alone. -/
theorem encoderAndDecoderCommandsCommute : Obligations.EncoderAndDecoderCommandsCommute := by
  intro i j s hi hj
  obtain ⟨f, hf, -⟩ := exec_encoder hi
  obtain ⟨g, hg, -⟩ := exec_decoder hj
  refine ⟨{ s with
    cmderr := s.cmderr || (f s.enc).refused || (g s.dec).refused
    enc := (f s.enc).engine
    dec := (g s.dec).engine }, (f s.enc).response, (g s.dec).response, ?_, ?_⟩
  · rw [execAll_cons (hf s), execAll_cons (hg _)]
    simp [execAll]
  · rw [execAll_cons (hg s), execAll_cons (hf _)]
    simp [execAll, Bool.or_right_comm]

/-- Settles O32: an engine's command by its effect on that engine, the three others one by one. -/
theorem everyCommandIsAnsweredOnce : Obligations.EveryCommandIsAnsweredOnce := by
  intro i s
  by_cases he : i.isEncoder = true
  · obtain ⟨f, hf, -⟩ := exec_encoder he
    exact ⟨_, _, hf s, rfl, rfl, rfl⟩
  by_cases hd : i.isDecoder = true
  · obtain ⟨f, hf, -⟩ := exec_decoder hd
    exact ⟨_, _, hf s, rfl, rfl, rfl⟩
  rcases system_command (by simpa using he) (by simpa using hd) with rfl | rfl | ⟨r, rfl⟩
  · exact ⟨_, _, exec_nop s, rfl, rfl, rfl⟩
  · exact ⟨_, _, exec_reset s, rfl, rfl, rfl⟩
  · rcases exec_rdreg r s with ⟨reg, -, hx⟩ | ⟨-, hx⟩
    · exact ⟨_, _, hx, rfl, rfl, rfl⟩
    · exact ⟨_, _, hx, rfl, rfl, rfl⟩

end Sys2Proof.Machine
end

section
/-! PROOFS. The step and the command port: a step runs, refuses or waits for the command at the head of the stream
(spec/30_encoding.md R73 to R75), hardware reset (spec/70_reset_and_hazards.md R200), and a whole byte stream
(spec/20_memory.md R46, R50). -/

namespace Sys2Proof.Machine

/-! ### The step, verdict by verdict -/

theorem step_of_command {s : State} {i : Instr} {n : Nat} (hr : s.resetIn = false) (hf : fetch s.cmdIn = .command i n) :
    step s = exec i (consume n s) := by
  simp [step, hr, hf]

theorem step_of_illegal {s : State} {op : Byte} {n : Nat} (hr : s.resetIn = false) (hf : fetch s.cmdIn = .illegal op n) :
    step s = .next (illegal op (consume n s)) := by
  simp [step, hr, hf]

theorem step_of_incomplete {s : State} (hr : s.resetIn = false) (hf : fetch s.cmdIn = .incomplete) : step s = .next s := by
  simp [step, hr, hf]

theorem step_of_resetIn {s : State} (hr : s.resetIn = true) : step s = .next (hardwareReset s) := by
  simp [step, hr]

/-- Settles O33: what decodes to a command was fetched as it. -/
theorem stepRunsTheDecodedCommand : Obligations.StepRunsTheDecodedCommand := fun _ _ _ hr hd =>
  step_of_command hr (decode_eq_command_iff.1 hd).1

/-- Settles O35: what decodes as incomplete is fetched as incomplete. -/
theorem stepWaitsForTheMissingBytes : Obligations.StepWaitsForTheMissingBytes := fun s hr hd =>
  step_of_incomplete hr ((decode_eq_incomplete_iff s.cmdIn).1 hd)

/-- An undefined opcode is refused by the step, a command with an illegal operand by its meaning. -/
theorem step_of_decode_illegal {s : State} {op : Byte} {n : Nat} (hr : s.resetIn = false)
    (hd : decode s.cmdIn = .illegal op n) : step s = .next (illegal op (consume n s)) := by
  rcases decode_illegal hd with hf | ⟨i, hf, hw, rfl⟩
  · exact step_of_illegal hr hf
  · exact (step_of_command hr hf).trans (exec_illFormed hw _)

/-- A verdict other than `incomplete` names at least one byte and at most those there are. -/
theorem fetch_bounds {bytes : List Byte} {v : Verdict} (hf : fetch bytes = v) (hv : v ≠ .incomplete) :
    1 ≤ v.length ∧ v.length ≤ bytes.length := by
  subst hf
  obtain ⟨h1, hle, -⟩ := fetch_whole hv
  exact ⟨h1, hle⟩

/-- An illegal command begins with its opcode and has at least one byte and at most those that are there. -/
theorem decode_illegal_bytes {bytes : List Byte} {op : Byte} {n : Nat} (hd : decode bytes = .illegal op n) :
    bytes.head? = some op ∧ 1 ≤ n ∧ n ≤ bytes.length := by
  rcases decode_illegal hd with hf | ⟨i, hf, -, rfl⟩
  · exact ⟨(fetch_illegal hf).1, fetch_bounds hf nofun⟩
  · have hbounds := fetch_bounds hf nofun
    obtain ⟨tail, rfl⟩ := encode_prefix_of_fetch hf
    exact ⟨rfl, hbounds⟩

/-- Settles O34: the refusal is `illegal` on the state with the command's bytes consumed. -/
theorem stepRefusesTheIllegalCommand : Obligations.StepRefusesTheIllegalCommand := fun _ _ _ hr hd =>
  ⟨step_of_decode_illegal hr hd, decode_illegal_bytes hd⟩

/-! ### Hardware reset (R200) -/

/-- Bytes fetched as one whole command decode as one, legal or illegal. -/
theorem decode_whole {p : List Byte} (hp : fetch p ≠ .incomplete) (hl : (fetch p).length = p.length) :
    (∃ i, decode p = .command i p.length) ∨ ∃ op, decode p = .illegal op p.length := by
  unfold decode
  cases hf : fetch p with
  | command i n =>
    rw [hf] at hl
    obtain rfl : n = p.length := hl
    cases hw : i.wellFormed with
    | true => exact .inl ⟨i, by simp [hw]⟩
    | false => exact .inr ⟨i.opcode, by simp [hw]⟩
  | illegal op n =>
    rw [hf] at hl
    obtain rfl : n = p.length := hl
    exact .inr ⟨op, rfl⟩
  | incomplete => exact absurd hf hp

/-- Settles O36: the bytes kept are those of `wholeCommandBytes`. -/
theorem hardwareResetRestoresTheResetState : Obligations.HardwareResetRestoresTheResetState := by
  intro s hr
  obtain ⟨parts, tail, hbytes, hkept, htail, hparts⟩ := wholeCommandBytes_spec s.cmdIn
  exact ⟨_, step_of_resetIn hr, rfl, rfl, rfl, rfl, rfl,
    fun hd => wholeCommandBytes_incomplete ((decode_eq_incomplete_iff s.cmdIn).1 hd),
    parts, tail, hbytes, hkept, (decode_eq_incomplete_iff tail).2 htail,
    fun p hp => decode_whole (hparts p hp).1 (hparts p hp).2⟩

/-! ### A byte stream (R46, R50) -/

/-- One step on the bytes of a command is the command, and leaves the bytes after it and the reset input. -/
theorem step_encode {i : Instr} (hw : i.wellFormed = true) {s : State} (hr : s.resetIn = false) :
    ∃ t : State, t.resetIn = false ∧ ∀ rest, step { s with cmdIn := encode i ++ rest } = .next { t with cmdIn := rest } ∧
      exec i { s with cmdIn := rest } = .next { t with cmdIn := rest } := by
  obtain ⟨t, ht, hx⟩ := exec_cmdIn i s
  refine ⟨t, ht.trans hr, fun rest => ⟨?_, hx rest⟩⟩
  have hf := (Instr.OnWire.of_wellFormed hw).fetch_encode rest
  rw [step_of_command (s := { s with cmdIn := encode i ++ rest }) hr hf, ← hx rest]
  simp [consume]

/-- Settles O37: by induction on the commands, each step taking one of them off the stream. -/
theorem byteStreamRunsTheCommandSequence : Obligations.ByteStreamRunsTheCommandSequence := by
  intro cmds rest s hw hr
  induction cmds generalizing s with
  | nil => rfl
  | cons i cmds ih =>
    obtain ⟨hi, hcmds⟩ := List.forall_mem_cons.1 hw
    obtain ⟨t, ht, hstep⟩ := step_encode hi hr
    have hbytes : assemble (i :: cmds) ++ rest = encode i ++ (assemble cmds ++ rest) := by simp [assemble]
    rw [execAll_cons (hstep rest).2, ← ih t hcmds ht, hbytes]
    exact run_succ core (hstep (assemble cmds ++ rest)).1

end Sys2Proof.Machine
end

section
/-! PROOFS. Whole runs of one engine: the encoder over a byte sequence (spec/41_encoder.md R116), the decoder over a bit sequence
with the empty tree, a single leaf and an ordinary tree (spec/42_decoder.md R140), and the two ways to feed a bit sequence
(spec/30_encoding.md R81). A decode run is reduced once to `Dec.feed`; the three kinds of tree then differ in what feeding does. -/

namespace Sys2Proof.Machine

/-! ### The encoder (R116) -/

/-- Settles O47: the run pushes the code words on an empty stream and flushes it, which packs them. -/
theorem encoderPacksTheConcatenatedCodeWords : Obligations.EncoderPacksTheConcatenatedCodeWords := by
  intro S W s hS hW hl
  obtain ⟨rs, hrun⟩ := execAll_encInit_encSyms_encFlush hS hW hl
  have hout := Enc.initState_pushBits_flush_out s.enc W
  refine ⟨_, hrun, rfl, Enc.initState_pushBits_bitlen s.enc hl, ?_, fun k _ => ?_, by simp, rfl, rfl⟩
  · rw [hout, length_packBits]
  · rw [hout, getLsbD_packBits]

/-- `ENC_INIT` and symbols that all have a code word leave the stream open and `CT` as it was. -/
theorem execAll_encInit_encSyms {S : List Byte} {W : Bits} {s : State}
    (hS : ∀ x ∈ S, (s.enc.ct.read x.toNat).isSome = true)
    (hW : W = S.flatMap fun x => ((s.enc.ct.read x.toNat).map CodeEntry.code).getD []) (hl : W.length < 2 ^ 64) :
    ∃ t, execAll (.encInit :: S.map .encSym) s = .next t ∧ t.enc.st = .streamOpen ∧ t.enc.ct = s.enc.ct := by
  obtain ⟨rs, hsyms⟩ := execAll_encSyms S (respondOk 0 { s with enc := s.enc.initState }) rfl W hS hW
    (by simp [Config.maxCount]; omega)
  exact ⟨_, (execAll_cons (exec_encInit s) _).trans hsyms, by simp, by simp⟩

/-- From a symbol without a code word on, every command of the stream answers that failure, the flush included (R114, R181). -/
theorem execAll_encSyms_missing {x : Byte} {t : State} (R : List Byte) (hst : t.enc.st = .streamOpen)
    (hr : t.enc.ct.read x.toNat = none) : execAll ((x :: R).map .encSym ++ [.encFlush]) t = .next { t with
      enc := { t.enc with st := .error, ecode := 2, einfo := x.setWidth 64 }
      responses := t.responses ++ List.replicate (R.length + 2) ⟨2, x.setWidth 64⟩ } := by
  rw [List.map_cons, List.cons_append, execAll_cons (exec_encSym_missing hst hr),
    execAll_append (execAll_encSyms_error R _ rfl), execAll_cons (exec_encFlush_error rfl)]
  simp [execAll, encRepeat, encRaise, respondFail, respond, Enc.latch, Cause.code, List.replicate_succ,
    ← List.replicate_succ']

/-- Settles O48: the symbols before it are an encode run of their own; from it on the failure is repeated. -/
theorem encoderStopsAtTheFirstMissingSymbol : Obligations.EncoderStopsAtTheFirstMissingSymbol := by
  intro P R x s hP hx hl
  obtain ⟨t, hrun, hst, hct⟩ := execAll_encInit_encSyms hP rfl hl
  refine ⟨t, _, hrun, ?_, rfl⟩
  have hsplit : Instr.encInit :: ((P ++ x :: R).map Instr.encSym ++ [Instr.encFlush]) =
      (Instr.encInit :: P.map Instr.encSym) ++ ((x :: R).map Instr.encSym ++ [Instr.encFlush]) := by simp
  rw [hsplit, execAll_append hrun]
  exact execAll_encSyms_missing R hst (hct ▸ hx)

/-! ### A decode run is feeding its bits (R137, R139, R140) -/

/-- The decode run of a bit sequence: `DEC_INIT`, one `DEC_BIT` per bit, `DEC_END`. -/
def decodeBits (W : Bits) : List Instr := .decInit :: (W.map (fun b => .decBit (if b then 1 else 0)) ++ [.decEnd])

/-- The result of a decode run whose bits left the decoder so: the error a bit raised; else a stream that stops mid-path is
malformed at its end. -/
def feedResult : Dec × Option Raised → RunResult (List Byte)
  | (_, some r) => .fail r.cause.code r.info
  | (d, none) => if d.mid then .fail 3 d.bitcnt else .ok d.out

/-- The decoder that the bits of a run leave: in `ERROR` where one raised. -/
def fedDec : Dec × Option Raised → Dec
  | (d, some r) => d.latch r
  | (d, none) => d

theorem execAll_decBits_dec (W : Bits) {s : State} (hst : s.dec.st = .run) :
    ∃ u, execAll (W.map fun b => .decBit (if b then 1 else 0)) s = .next u ∧ u.dec = fedDec (s.dec.feed W) := by
  obtain ⟨rs, hrun, -, -⟩ := execAll_decBits W s hst
  refine ⟨_, hrun, ?_⟩
  rcases s.dec.feed W with ⟨d, _ | r⟩ <;> rfl

/-- `DEC_END` after the bits of a run gives its result. -/
theorem exec_decEnd_fedDec {u : State} {x : Dec × Option Raised} (hst : x.1.st = .run) (hu : u.dec = fedDec x) :
    ∃ t, exec .decEnd u = .next t ∧ decResult t = feedResult x := by
  match x, hst, hu with
  | (d, some r), _, hu =>
    have hx : exec .decEnd u = .next (decRepeat u) := exec_decEnd_error (by rw [hu]; rfl)
    exact ⟨_, hx, by simp [decResult, hu, fedDec, feedResult]⟩
  | (d, none), hst, hu =>
    obtain rfl : u.dec = d := hu
    cases hm : u.dec.mid with
    | true => exact ⟨_, exec_decEnd_mid hst hm, by simp [decResult, feedResult, hm, Cause.code]⟩
    | false => exact ⟨_, exec_decEnd_run hst hm, by simp [decResult, feedResult, hm]⟩

theorem decodeBits_result (W : Bits) (s : State) :
    ∃ t, execAll (decodeBits W) s = .next t ∧ decResult t = feedResult (s.dec.initState.feed W) := by
  obtain ⟨u, hbits, hu⟩ := execAll_decBits_dec W (s := respondOk 0 { s with dec := s.dec.initState }) rfl
  obtain ⟨-, -, hst, -, -⟩ := Dec.feed_frame W s.dec.initState
  obtain ⟨t, hend, hres⟩ := exec_decEnd_fedDec hst hu
  refine ⟨t, ?_, hres⟩
  rw [decodeBits, execAll_cons (exec_decInit s), execAll_append hbits]
  exact execAll_cons hend []

/-- Each bit that raises nothing is counted (R32). -/
theorem Dec.feed_bitcnt {w : Bits} {d d' : Dec} (h : d.feed w = (d', none)) :
    d'.bitcnt = d.bitcnt + BitVec.ofNat 64 w.length := by
  induction w generalizing d with
  | nil => cases h; simp
  | cons b w ih =>
    cases hs : d.decStep b with
    | error r => rw [Dec.feed_cons_error w hs] at h; cases h
    | ok d₁ =>
      obtain ⟨-, -, -, -, -, hcnt⟩ := Dec.decStep_frame hs
      rw [Dec.feed_cons_ok w hs] at h
      rw [ih h, hcnt, List.length_cons, BitVec.add_assoc, Nat.add_comm w.length, BitVec.ofNat_add]
      rfl

/-! ### The empty tree and the single leaf (R140) -/

/-- Without a root the first bit fails. -/
theorem feedResult_of_no_root {d : Dec} (hp : d.root.present = false) (W : Bits) :
    feedResult (d.initState.feed W) = if W = [] then .ok [] else .fail 4 0 := by
  cases W with
  | nil => rfl
  | cons b W =>
    rw [Dec.feed_cons_error W (Dec.decStep_noRoot (d := d.initState) (by simp [Config.maxCount]) hp)]
    rfl

/-- With a single leaf each bit 0 is one symbol. -/
theorem Dec.feed_leaf_zeros {d : Dec} {sym : Byte} (hp : d.root.present = true)
    (hr : d.tree.read d.root.idx.toNat = some (.leaf sym)) {n : Nat} (hn : n < 2 ^ 64) :
    ∃ d', d.initState.feed (List.replicate n false) = (d', none) ∧ d'.out = List.replicate n sym ∧ d'.mid = false := by
  have hwords : (List.replicate n (sym, [false])).flatMap Prod.snd = List.replicate n false := by
    simp [List.flatMap_replicate]
  obtain ⟨d', hfeed, hout, hmid, -⟩ := Dec.feed_leafWords (d := d.initState) (es := List.replicate n (sym, [false]))
    hp rfl hr (fun e he => (List.eq_of_mem_replicate he)) (by simpa [hwords] using hn)
  exact ⟨d', hwords ▸ hfeed, by simpa using hout, hmid⟩

/-- With a single leaf the first bit 1 fails with its index. -/
theorem feedResult_of_leaf_one {d : Dec} {sym : Byte} (hp : d.root.present = true)
    (hr : d.tree.read d.root.idx.toNat = some (.leaf sym)) {k : Nat} (hk : k + 1 < 2 ^ 64) (W : Bits) :
    feedResult (d.initState.feed (List.replicate k false ++ true :: W)) = .fail 3 (BitVec.ofNat 64 k) := by
  obtain ⟨d', hfeed, -, hmid⟩ := Dec.feed_leaf_zeros hp hr (n := k) (by omega)
  obtain ⟨htree, hroot, -⟩ := Dec.feed_frame (List.replicate k false) d.initState
  rw [hfeed] at htree hroot
  have hcnt : d'.bitcnt = BitVec.ofNat 64 k := by simpa using Dec.feed_bitcnt hfeed
  have hmax : d'.bitcnt.toNat ≠ Config.maxCount := by
    rw [hcnt, BitVec.toNat_ofNat, Nat.mod_eq_of_lt (by omega), Config.maxCount]; omega
  have hleaf : d'.tree.read d'.cur.toNat = some (.leaf sym) := by
    rw [Dec.cur_eq_root hmid, htree, hroot]; exact hr
  rw [Dec.feed_append, hfeed]
  simp only [Dec.feed_cons_error W (Dec.decStep_leaf_true hmax (hroot ▸ hp) hleaf hmid), feedResult, hcnt]
  rfl

/-- Settles O49: the runs are feeding; a stream whose first 1 is at `k` is `k` zeros, the 1, and the rest. -/
theorem decoderOfEmptyAndSingleLeafTrees : Obligations.DecoderOfEmptyAndSingleLeafTrees := by
  refine ⟨fun W s hp => ?_, fun W sym s hp hr hl => ?_⟩
  · obtain ⟨t, hrun, hres⟩ := decodeBits_result W s
    exact ⟨t, hrun, hres.trans (feedResult_of_no_root hp W)⟩
  · obtain ⟨t, hrun, hres⟩ := decodeBits_result W s
    refine ⟨t, hrun, fun hzero => ?_, fun k hk hone hzero => ?_⟩
    · obtain ⟨d', hfeed, hout, hmid⟩ := Dec.feed_leaf_zeros hp hr hl
      rw [hres, List.eq_replicate_of_mem hzero, hfeed]
      simp [feedResult, hout, hmid]
    · have htake : W.take k = List.replicate k false := by
        refine List.ext_getElem? fun j => ?_
        rcases Nat.lt_or_ge j k with hj | hj
        · rw [List.getElem?_take_of_lt hj, hzero j hj]; simp [hj]
        · simp [hj]
      have hsplit : W = List.replicate k false ++ true :: W.drop (k + 1) := by
        rw [← htake, ← (List.getElem?_eq_some_iff.1 hone).2, List.getElem_cons_drop, List.take_append_drop]
      rw [hres, hsplit]
      exact feedResult_of_leaf_one hp hr (by omega) _

/-! ### Ordinary trees (R140) -/

/-- The walk of an Internal node has no empty word. -/
theorem walk_internal_ne_nil {w : Nat} {l r : HuffmanNode} : ∀ e ∈ walk (.internal w l r) [], e.2 ≠ [] := by
  intro e he
  obtain ⟨b, v, hv, -⟩ := mem_walk_internal he
  simp [hv]

/-- Every bit sequence is a concatenation of code words, or one followed by a proper beginning of a code word. -/
theorem exists_codeWords_append {w : Nat} {l r : HuffmanNode} (W : Bits) : ∃ (es : List (Byte × Bits)) (p : Bits),
    (∀ e ∈ es, e ∈ codes (some (.internal w l r))) ∧ W = es.flatMap Prod.snd ++ p ∧
      (p = [] ∨ ∃ e ∈ codes (some (.internal w l r)), p <+: e.2 ∧ p ≠ e.2) := by
  rcases walk_covers (.internal w l r) W with ⟨e, he, V, rfl⟩ | hprefix
  · have hpos : 0 < e.2.length := List.length_pos_of_ne_nil (walk_internal_ne_nil e he)
    obtain ⟨es, p, hes, hV, hp⟩ := exists_codeWords_append (w := w) (l := l) (r := r) V
    exact ⟨e :: es, p, List.forall_mem_cons.2 ⟨he, hes⟩, by rw [List.flatMap_cons, List.append_assoc, ← hV], hp⟩
  · exact ⟨[], W, nofun, rfl, .inr hprefix⟩
termination_by W.length
decreasing_by rw [← ‹e.2 ++ V = W›, List.length_append]; omega

/-- Code words of the held tree decode to their symbols. -/
theorem feedResult_of_codes {T : Option HuffmanNode} {d : Dec} {es : List (Byte × Bits)} (hh : d.initState.holds T)
    (he : ∀ e ∈ es, e ∈ codes T) (hl : (es.flatMap Prod.snd).length < 2 ^ 64) :
    feedResult (d.initState.feed (es.flatMap Prod.snd)) = .ok (es.map Prod.fst) := by
  obtain ⟨d', hfeed, hout, hmid, -⟩ := Dec.feed_codes hh rfl he (by simpa using hl)
  simp [hfeed, feedResult, hmid, hout]

/-- Code words and a non-empty proper beginning of another end mid-path, all bits counted. -/
theorem feedResult_of_codes_prefix {w : Nat} {l r : HuffmanNode} {d : Dec} {es : List (Byte × Bits)} {p : Bits}
    (hp : d.root.present = true) (hh : d.tree.holdsTree (.internal w l r) d.root.idx.toNat)
    (he : ∀ e ∈ es, e ∈ codes (some (.internal w l r))) (hne : p ≠ [])
    (hcut : ∃ e ∈ codes (some (.internal w l r)), p <+: e.2 ∧ p ≠ e.2)
    (hl : (es.flatMap Prod.snd ++ p).length < 2 ^ 64) :
    feedResult (d.initState.feed (es.flatMap Prod.snd ++ p)) =
      .fail 3 (BitVec.ofNat 64 (es.flatMap Prod.snd ++ p).length) := by
  obtain ⟨e, hew, hpre, hpne⟩ := hcut
  have h0 : d.initState.bitcnt.toNat = 0 := rfl
  rw [List.length_append] at hl
  obtain ⟨d₁, hfeed₁, -, hmid₁, hroot₁, htree₁, -, hcnt₁⟩ :=
    Dec.feed_codeWords (d := d.initState) hh hp rfl he walk_internal_ne_nil (by omega)
  have hheld₁ : d₁.tree.holdsTree (.internal w l r) d₁.cur.toNat := by
    rw [Dec.cur_eq_root hmid₁, htree₁, hroot₁]; exact hh
  obtain ⟨d₂, hfeed₂, -, hmid₂, -, -⟩ :=
    Dec.feed_walk_prefix hheld₁ (hroot₁ ▸ hp) hew hpre hpne (by omega)
  have hfeed : d.initState.feed (es.flatMap Prod.snd ++ p) = (d₂, none) := by rw [Dec.feed_append, hfeed₁]; exact hfeed₂
  have hcnt := Dec.feed_bitcnt hfeed
  simp [hfeed, feedResult, hmid₂ hne, hcnt]

/-- Settles O50: the run is feeding; that there is no third case is `exists_codeWords_append`. -/
theorem decoderOfOrdinaryTrees : Obligations.DecoderOfOrdinaryTrees := by
  rintro T w l r W s rfl hp hh hl
  obtain ⟨t, hrun, hres⟩ := decodeBits_result W s
  refine ⟨t, hrun, fun es he hW => ?_, fun es p he hne hcut hW => ?_, exists_codeWords_append W⟩
  · subst hW
    exact hres.trans (feedResult_of_codes (T := some (.internal w l r)) ⟨hp, hh⟩ he hl)
  · subst hW
    exact hres.trans (feedResult_of_codes_prefix hp hh he hne hcut hl)

/-! ### DEC_STREAM (R81, R138) -/

/-- Commands that write no engine, one after another, write no engine. -/
theorem execAll_keeps_engines {cmds : List Instr} {e : Enc} {d : Dec}
    (h : ∀ i ∈ cmds, ∀ s : State, s.enc = e → s.dec = d → ∃ t, exec i s = .next t ∧ t.enc = e ∧ t.dec = d)
    {s : State} (he : s.enc = e) (hd : s.dec = d) : ∃ t, execAll cmds s = .next t ∧ t.enc = e ∧ t.dec = d := by
  induction cmds generalizing s with
  | nil => exact ⟨s, rfl, he, hd⟩
  | cons i cmds ih =>
    obtain ⟨hi, hcmds⟩ := List.forall_mem_cons.1 h
    obtain ⟨t, hx, he', hd'⟩ := hi s he hd
    rw [execAll_cons hx]
    exact ih hcmds he' hd'

/-- A closed decoder takes no bit: `DEC_BIT` repeats the error or is refused. -/
theorem exec_decBit_closed {s : State} (hst : s.dec.st ≠ .run) (b : Bool) :
    ∃ t, exec (.decBit (if b then 1 else 0)) s = .next t ∧ t.enc = s.enc ∧ t.dec = s.dec := by
  have ha : (if b then 1 else 0 : Byte).extractLsb' 1 7 = 0 := by cases b <;> rfl
  rcases DecSt.eq_done_or_error hst with h | h
  · exact ⟨_, exec_decBit_done ha h, rfl, rfl⟩
  · exact ⟨_, exec_decBit_error ha h, rfl, rfl⟩

/-- A closed decoder takes no bits: `DEC_BYTE` repeats the error or is refused. -/
theorem exec_decByte_closed {s : State} (hst : s.dec.st ≠ .run) {v n : Byte} (h1 : 1 ≤ n.toNat) (h8 : n.toNat ≤ 8) :
    ∃ t, exec (.decByte v n) s = .next t ∧ t.enc = s.enc ∧ t.dec = s.dec := by
  rcases DecSt.eq_done_or_error hst with h | h
  · exact ⟨_, exec_decByte_done h1 h8 h, rfl, rfl⟩
  · exact ⟨_, exec_decByte_error h1 h8 h, rfl, rfl⟩

/-- Settles O51: in `RUN` both feed the same bits; a closed decoder is left as it is by both. -/
theorem decStreamFeedsTheStreamBits : Obligations.DecStreamFeedsTheStreamBits := by
  intro W s
  obtain ⟨L, hL, hlegal, hbits⟩ := decStream_packBits W
  rw [hL]
  by_cases hst : s.dec.st = .run
  · obtain ⟨rs, hbytes⟩ := execAll_decBytes L hlegal s hst W hbits
    obtain ⟨rs', hrun, -, -⟩ := execAll_decBits W s hst
    exact ⟨_, _, hbytes, hrun, rfl, rfl⟩
  · obtain ⟨t, ht, hte, htd⟩ := execAll_keeps_engines (cmds := L.map fun p => .decByte p.1 p.2)
      (List.forall_mem_map.2 fun p hp u he hd =>
        he ▸ hd ▸ exec_decByte_closed (hd ▸ hst) (hlegal p hp).1 (hlegal p hp).2) (s := s) rfl rfl
    obtain ⟨u, hu, hue, hud⟩ := execAll_keeps_engines (cmds := W.map fun b => .decBit (if b then 1 else 0))
      (List.forall_mem_map.2 fun b _ u he hd => he ▸ hd ▸ exec_decBit_closed (hd ▸ hst) b) (s := s) rfl rfl
    exact ⟨t, u, ht, hu, htd.trans hud.symm, hte.trans hue.symm⟩

end Sys2Proof.Machine
end

section
/-! PROOFS. The host's construction and loading: the built tree (spec/40_host_construction.md R96), the memories after `LoadCT` and
`LoadTree` (R99, R100) and the worked example (R90, R98, R108). -/

namespace Sys2Proof.Machine

/-! ### The built tree (R96) -/

theorem buildTree_of_one_participant {f : FrequencyTable} {sym : Byte} (h : participants f = [sym]) :
    buildTree f = some (.leaf sym (f sym)) := by
  simp only [buildTree, h]

/-- Settles O54: the leaves are the participating symbols, and a full binary tree's size and depth follow from its leaves. -/
theorem builtTreeHasOneLeafPerSymbol : Obligations.BuiltTreeHasOneLeafPerSymbol := by
  intro f
  refine ⟨buildTree_of_no_participants, fun sym => buildTree_of_one_participant, fun hne => ?_⟩
  obtain ⟨t, ht, hperm, hweight, hsums⟩ := buildTree_of_participants hne
  have hlen := hperm.length_eq
  exact ⟨t, ht, hperm, hlen ▸ t.size_symbols, hlen ▸ t.depth_symbols, hsums, hweight⟩

/-! ### Loading (R99, R100) -/

/-- Settles O57: the run writes the code words of `C` in `CT` and nothing else. -/
theorem loadCTMakesCTTheCodeTable : Obligations.LoadCTMakesCTTheCodeTable := by
  intro C s hC
  obtain ⟨ct, rs, hrun, hread⟩ := execAll_loadCT hC s
  exact ⟨_, hrun, hread, rfl⟩

/-- Settles O58: the empty tree is a `TREE_CLEAR`; a tree that fits is written in pre-order from index 0. -/
theorem loadTreeMakesTREEHoldTheTree : Obligations.LoadTreeMakesTREEHoldTheTree := by
  refine ⟨fun s => ⟨_, execAll_cons (exec_treeClear s) [], rfl, Table.read_empty⟩, fun T s hT => ?_⟩
  obtain ⟨tree, rs, hrun, hheld, hrest⟩ := execAll_loadTree_some hT s
  exact ⟨_, hrun, rfl, hheld, hrest, rfl⟩

/-! ### The worked example (R90, R98, R108) -/

/-- The bytes of "ana are mere". -/
def anaAreMere : List Byte := [0x61, 0x6E, 0x61, 0x20, 0x61, 0x72, 0x65, 0x20, 0x6D, 0x65, 0x72, 0x65]

/-- The code words of its symbols. -/
def anaAreMereCodes : CodeTable :=
  [(0x6D, [false, false, false]), (0x6E, [false, false, true]), (0x61, [false, true]), (0x65, [true, false]),
   (0x20, [true, true, false]), (0x72, [true, true, true])]

theorem codes_anaAreMere : codes (buildTree (freq anaAreMere)) = anaAreMereCodes := by
  decide +kernel

/-- Six words: two of two bits, four of three. -/
theorem kraftSum_anaAreMereCodes : kraftSum anaAreMereCodes = 1 := by
  norm_num [kraftSum, anaAreMereCodes]

/-- Settles O56: the code table is computed once; packing, length and Kraft sum are computed from it. -/
theorem workedExampleAnaAreMere : Obligations.WorkedExampleAnaAreMere := by
  intro S hS
  obtain rfl : S = anaAreMere := hS
  rw [codes_anaAreMere]
  exact ⟨rfl, by decide, by decide, kraftSum_anaAreMereCodes⟩

end Sys2Proof.Machine
end
